-- ==== Sys2Proof/Word.lean ====
section
/-! DEFINITION. The byte, word, address and block types of MOE (00_scope.md R11, R12). -/

namespace Sys2Proof

/-- One byte (R12). -/
abbrev Byte := BitVec 8

/-- One word of the 32-bit data path (R11). -/
abbrev Word := BitVec 32

/-- A byte offset in the host port space (R11, R60). -/
abbrev Addr := BitVec 16

/-- A block is a sequence of bytes, its first byte `B[0]` at the head (R12). Its length, BS, is kept by
the invariant of Safety.lean (R47), since BS is a parameter of the handle and not a type. -/
abbrev Block := List Byte

/-- `0^n`, the block of n zero bytes. -/
def zeroBlock (n : Nat) : Block := List.replicate n 0

/-- The block of n bytes whose byte i is `f i`. -/
def blockOf (n : Nat) (f : Nat → Byte) : Block := (List.range n).map f

end Sys2Proof
end

