-- ==== Sys2Proof/Syntax.lean ====
section
/-! DEFINITION. The commands of MOE, one constructor per row of spec/opcode_table.json (30_encoding.md R95). -/

namespace Sys2Proof

/-- A MOE command (30_encoding.md R90 to R95). IVLEN counts the bytes of the IV argument (R92) and LEN the bytes
of BUF to transform (R93); both are plain counts, never scaled (R94). WellFormed.lean bounds them by their fields. -/
inductive Instr where
  /-- SETMODE.ECB, MODE = 0 -/
  | setmodeEcb (ivlen : Nat)
  /-- SETMODE.CBC, MODE = 1 -/
  | setmodeCbc (ivlen : Nat)
  /-- SETMODE.PCBC, MODE = 2 -/
  | setmodePcbc (ivlen : Nat)
  /-- SETMODE.CFB, MODE = 3 -/
  | setmodeCfb (ivlen : Nat)
  /-- SETMODE.OFB, MODE = 4 -/
  | setmodeOfb (ivlen : Nat)
  /-- SETMODE.CTR, MODE = 5 -/
  | setmodeCtr (ivlen : Nat)
  /-- SETMODE.CTRLE, MODE = 6 -/
  | setmodeCtrle (ivlen : Nat)
  /-- SETMODE.BAD, MODE = 7, the unrecognized mode name -/
  | setmodeBad (ivlen : Nat)
  /-- ENC, ENCRYPT -/
  | enc (len : Nat)
  /-- DEC, DECRYPT -/
  | dec (len : Nat)
  deriving DecidableEq, Repr

end Sys2Proof
end

