-- ==== Sys2Proof/WellFormed.lean ====
section
/-! DEFINITION. Which commands have an encoding: each operand fits its field (30_encoding.md R92, R93, R102). -/

namespace Sys2Proof

/-- IVLEN is an 8-bit field (R92) and LEN a 16-bit field (R93). -/
def Instr.wellFormed : Instr → Bool
  | .setmodeEcb ivlen => decide (ivlen < 256)
  | .setmodeCbc ivlen => decide (ivlen < 256)
  | .setmodePcbc ivlen => decide (ivlen < 256)
  | .setmodeCfb ivlen => decide (ivlen < 256)
  | .setmodeOfb ivlen => decide (ivlen < 256)
  | .setmodeCtr ivlen => decide (ivlen < 256)
  | .setmodeCtrle ivlen => decide (ivlen < 256)
  | .setmodeBad ivlen => decide (ivlen < 256)
  | .enc len => decide (len < 65536)
  | .dec len => decide (len < 65536)

end Sys2Proof
end

