-- ==== Sys2Proof/Decode.lean ====
section
/-! DEFINITION. The command decoder, total and rejecting by name, and the encoder (30_encoding.md R90 to R101). -/

namespace Sys2Proof

/-- Why a word is no command (30_encoding.md R97, R98). Both reasons set E_CMD. -/
inductive DecodeError where
  /-- OP is 0x0 or 0x4 .. 0xF (R97). -/
  | unassignedOp (op : Nat)
  /-- An assigned OP with a non-zero reserved bit (R98). -/
  | reservedBits
  /-- Fewer than the four bytes of a word: no command was written (R90). -/
  | truncated
  deriving DecidableEq, Repr

/-- `w[lo+len-1:lo]`, read as an unsigned number (00_scope.md R12). -/
def bits (w : Word) (lo len : Nat) : Nat := w.toNat / 2 ^ lo % 2 ^ len

/-- The SETMODE row of a MODE field value (R95): codes 0 to 6, and 7 (BAD). -/
def setmodeRow (mode ivlen : Nat) : Instr :=
  match mode with
  | 0 => .setmodeEcb ivlen
  | 1 => .setmodeCbc ivlen
  | 2 => .setmodePcbc ivlen
  | 3 => .setmodeCfb ivlen
  | 4 => .setmodeOfb ivlen
  | 5 => .setmodeCtr ivlen
  | 6 => .setmodeCtrle ivlen
  | _ => .setmodeBad ivlen

/-- The decoder (R101, after the FAULT check): OP selects the format, the reserved bits must be zero, and the
operands are the unsigned fields of R94. -/
def decode (w : Word) : Except DecodeError Instr :=
  match bits w 0 4 with
  | 1 =>
    if bits w 16 16 ≠ 0 ∨ bits w 7 1 ≠ 0 then .error .reservedBits
    else .ok (setmodeRow (bits w 4 3) (bits w 8 8))
  | 2 => if bits w 4 12 ≠ 0 then .error .reservedBits else .ok (.enc (bits w 16 16))
  | 3 => if bits w 4 12 ≠ 0 then .error .reservedBits else .ok (.dec (bits w 16 16))
  | op => .error (.unassignedOp op)

/-- A word of format M (R92). -/
def formatM (mode ivlen : Nat) : Word := BitVec.ofNat 32 (0x1 + mode * 2 ^ 4 + ivlen * 2 ^ 8)

/-- A word of format D (R93). -/
def formatD (op len : Nat) : Word := BitVec.ofNat 32 (op + len * 2 ^ 16)

/-- The encoder: the word of a well-formed command (R92, R93, R95). -/
def encode : Instr → Word
  | .setmodeEcb ivlen => formatM 0 ivlen
  | .setmodeCbc ivlen => formatM 1 ivlen
  | .setmodePcbc ivlen => formatM 2 ivlen
  | .setmodeCfb ivlen => formatM 3 ivlen
  | .setmodeOfb ivlen => formatM 4 ivlen
  | .setmodeCtr ivlen => formatM 5 ivlen
  | .setmodeCtrle ivlen => formatM 6 ivlen
  | .setmodeBad ivlen => formatM 7 ivlen
  | .enc len => formatD 2 len
  | .dec len => formatD 3 len

/-- The word whose lane j carries byte j (20_memory.md R63). -/
def wordOfLanes (b0 b1 b2 b3 : Byte) : Word :=
  BitVec.ofNat 32 (b0.toNat + 2 ^ 8 * b1.toNat + 2 ^ 16 * b2.toNat + 2 ^ 24 * b3.toNat)

/-- Data lane j of a word: `v[8j+7 : 8j]` (20_memory.md R63). -/
def lane (v : Word) (j : Nat) : Byte := BitVec.ofNat 8 (bits v (8 * j) 8)

/-- The four lanes of a word, the lowest address first (R63). -/
def lanes (v : Word) : List Byte := (List.range 4).map (lane v)

/-- The decoder on any bytes: one word of four lanes, the lowest address first (R63, R90), and the rest. -/
def decodeBytes : List Byte → Except DecodeError (Instr × List Byte)
  | b0 :: b1 :: b2 :: b3 :: rest =>
    match decode (wordOfLanes b0 b1 b2 b3) with
    | .ok i => .ok (i, rest)
    | .error e => .error e
  | _ => .error .truncated

/-- The instruction the decoder reads from the table's bits: every bit above the lowest nbits is zero. -/
def decodeTableWord (nbits w : Nat) : Option Instr :=
  match decodeBytes (lanes (BitVec.ofNat 32 (w % 2 ^ nbits))) with
  | .ok (i, _) => some i
  | .error _ => none

/-- One row of the command map of R95. -/
structure OpRow where
  mnemonic : String
  /-- the value the fixed bits have -/
  pattern : Word
  /-- the fixed bits -/
  mask : Word
  deriving DecidableEq, Repr

/-- The complete command map (R95; spec/opcode_table.json). -/
def opRows : List OpRow :=
  [ { mnemonic := "SETMODE.ECB", pattern := 0x00000001, mask := 0xFFFF00FF },
    { mnemonic := "SETMODE.CBC", pattern := 0x00000011, mask := 0xFFFF00FF },
    { mnemonic := "SETMODE.PCBC", pattern := 0x00000021, mask := 0xFFFF00FF },
    { mnemonic := "SETMODE.CFB", pattern := 0x00000031, mask := 0xFFFF00FF },
    { mnemonic := "SETMODE.OFB", pattern := 0x00000041, mask := 0xFFFF00FF },
    { mnemonic := "SETMODE.CTR", pattern := 0x00000051, mask := 0xFFFF00FF },
    { mnemonic := "SETMODE.CTRLE", pattern := 0x00000061, mask := 0xFFFF00FF },
    { mnemonic := "SETMODE.BAD", pattern := 0x00000071, mask := 0xFFFF00FF },
    { mnemonic := "ENC", pattern := 0x00000002, mask := 0x0000FFFF },
    { mnemonic := "DEC", pattern := 0x00000003, mask := 0x0000FFFF } ]

/-- "A word w selects a row when (w AND mask) == match" (R95). -/
def OpRow.selects (r : OpRow) (w : Word) : Bool := decide (w &&& r.mask = r.pattern)

/-- The row a command stands for (R95, R96), by its mnemonic. -/
def Instr.mnemonic : Instr → String
  | .setmodeEcb _ => "SETMODE.ECB"
  | .setmodeCbc _ => "SETMODE.CBC"
  | .setmodePcbc _ => "SETMODE.PCBC"
  | .setmodeCfb _ => "SETMODE.CFB"
  | .setmodeOfb _ => "SETMODE.OFB"
  | .setmodeCtr _ => "SETMODE.CTR"
  | .setmodeCtrle _ => "SETMODE.CTRLE"
  | .setmodeBad _ => "SETMODE.BAD"
  | .enc _ => "ENC"
  | .dec _ => "DEC"

end Sys2Proof
end

