-- ==== Sys2Proof/Config.lean ====
section
/-! DEFINITION. The parameters of MOE: the build parameters NBUF and CTRLE_POLICY (00_scope.md R7, R9), the cipher
adapter (R10, 42_datapath.md R186 to R192) with its uninterpreted transforms, the free draw of BUF after reset
(10_state.md R46) and the platform's base address (20_memory.md R60). -/

namespace Sys2Proof.Config

/-- CTRLE_POLICY, the build parameter that gives the CTR-LE code its behaviour (00_scope.md R9). -/
inductive CtrlePolicy where
  /-- SET_MODE with the CTR-LE code fails with E_UNSUPPORTED (the default). -/
  | reject
  /-- counter mode with a little-endian increment -/
  | littleEndian
  /-- blocks are processed as ECB does -/
  | ecbFallback
  deriving DecidableEq, Repr

/-- The build parameters. They are the same for every handle the hardware constructs. -/
structure Build where
  /-- NBUF, the capacity of BUF in bytes (R7) -/
  nbuf : Nat
  /-- CTRLE_POLICY (R9) -/
  ctrle : CtrlePolicy
  deriving DecidableEq, Repr

/-- The defaults of R7 and R9. -/
def Build.standard : Build := { nbuf := 256, ctrle := .reject }

/-- What R7 asks of NBUF. -/
abbrev Build.wf (b : Build) : Prop := b.nbuf % 16 = 0 ∧ 16 ≤ b.nbuf ∧ b.nbuf ≤ 65280

/-- The one-block cipher adapter bound to a handle (42_datapath.md R186). DESIGN CHOICE (log entry 4): an
adapter is a name, as plain data, and its functions are looked up by that name in Machine/Adapter.lean. -/
inductive Adapter where
  /-- TOY, the test adapter of 95_test_vectors.md V-TOY, whose transforms the spec writes out. -/
  | toy
  /-- An external cipher (AES, DES, 3DES, Blowfish), known to MOE by its contract only: its transforms are
  the uninterpreted functions below, at its number `id`; `blockSize` is its constant `block_size` (R189). -/
  | external (id : Nat) (blockSize : Nat)
  deriving DecidableEq, Repr

/-- `Enc_S` of an external adapter on a handle with both capabilities, for blocks of n bytes. R10 assumes
`Dec_S(Enc_S(x)) = x` there, and on the finite set of n-byte blocks that is exactly: Enc_S is a permutation and
Dec_S its inverse. Uninterpreted (log entry 4). -/
opaque cipher (id n : Nat) (schedule : List Byte) : Equiv.Perm (Fin n → Byte)

/-- `Enc_S` of an external adapter on a handle that lacks a capability: R10 assumes only that it is a total
pure function. Uninterpreted (log entry 4). -/
opaque oneWayEnc (id n : Nat) (schedule : List Byte) : (Fin n → Byte) → Fin n → Byte

/-- `Dec_S` of an external adapter on a handle that lacks a capability. Uninterpreted (log entry 4). -/
opaque oneWayDec (id n : Nat) (schedule : List Byte) : (Fin n → Byte) → Fin n → Byte

/-- `key_setup(key_bytes, key_size_bits) -> schedule` of an external adapter (42_datapath.md R188).
Uninterpreted (log entry 4). -/
opaque externalKeySetup (id : Nat) (key : List Byte) (keyBits : Nat) : List Byte

/-- The free draw of BUF after reset (10_state.md R46): byte `off` of BUF at construction number `draw`, as
long as nothing has been written there. Uninterpreted (log entry 6). -/
opaque bufDraw : Nat → Nat → Byte

/-- MOE_BASE, the base address the platform chooses (20_memory.md R60, R77). Uninterpreted (log entry 11). -/
opaque moeBase : Nat

end Sys2Proof.Config
end

