-- ==== Sys2Proof/Machine/State.lean ====
section
/-! DEFINITION. The state of MOE (10_state.md R22), the interactions its port serves (20_memory.md R61,
70_reset_and_hazards.md R306), and the state after reset (10_state.md R46). -/

namespace Sys2Proof.Machine

/-- The contents of BUF: the bytes written since reset, keyed by BUF offset (10_state.md R32). A byte that is
not listed has not been written; what reads there is `State.bufByte`'s matter (log entry 6). -/
abbrev Memory := List Host.Cell

/-- The width w of a host access, 1, 2 or 4 bytes (20_memory.md R61). -/
inductive Width where
  | w8
  | w16
  | w32
  deriving DecidableEq, Repr

/-- A host access: `HostRead(addr, w)` or `HostWrite(addr, w, v)` (00_scope.md R14). -/
inductive Access where
  | read (addr : Addr) (width : Width)
  | write (addr : Addr) (width : Width) (value : Word)
  deriving DecidableEq, Repr

/-- What the port answers to an access: a value or an acknowledgement, or a bus error (60_exceptions.md R270).
The data of a write's answer is 0. -/
structure Answer where
  error : Bool
  data : Word
  deriving DecidableEq, Repr

/-- The inputs of a construction (70_reset_and_hazards.md R290): an adapter with its block size, the key
bytes, the capability flags, CIPHER_ID and KEY_BYTES. -/
structure Inputs where
  adapter : Config.Adapter
  key : List Byte
  canEnc : Bool
  canDec : Bool
  cipherId : Nat
  keyBytes : Nat
  deriving DecidableEq, Repr

/-- What the outside may do to MOE (R306). -/
inductive Event where
  /-- a host access, served between commands -/
  | access (a : Access)
  /-- a construction, MOE's reset (R290) -/
  | construct (inputs : Inputs)
  /-- the handle goes out of use (R292) -/
  | release
  /-- a host access while the handle is being constructed, which has no move (R306, 93 U9) -/
  | accessDuringConstruction (a : Access)
  deriving DecidableEq, Repr

/-- The outcomes of a command (60_exceptions.md R260). -/
inductive ResultCode where
  | ok
  | eCmd
  | eMode
  | eUnsupported
  | eIv
  | eCap
  | eLen
  | eRange
  | eFault
  deriving DecidableEq, Repr

/-- The state of MOE: the elements of R22 under their names, the parameters a model keeps as parameters
(92_eei_decisions.md, "Open parameters"), and three fields of the model's own. -/
structure State where
  /-- NBUF and CTRLE_POLICY, fixed for the hardware (00_scope.md R7, R9; log entry 3) -/
  build : Config.Build
  /-- BS, a constant of the handle (R33) -/
  bs : Nat
  /-- CIPHER_ID, a constant of the handle (R33, R40) -/
  cipherId : BitVec 8
  /-- KEY_BYTES, a constant of the handle (R33, R42) -/
  keyBytes : Nat
  /-- CAN_ENC (R27) -/
  canEnc : Bool
  /-- CAN_DEC (R27) -/
  canDec : Bool
  /-- the adapter bound at construction (00_scope.md R10; log entry 4) -/
  adapter : Config.Adapter
  /-- S, the adapter's key schedule, opaque to MOE (R34) -/
  schedule : List Byte
  /-- MODE, a 3-bit code (R25) -/
  mode : BitVec 3
  /-- IV (R23) -/
  iv : Block
  /-- CTR (R24) -/
  ctr : Block
  /-- RESULT, STATUS[3:0] (R28, R29) -/
  result : BitVec 4
  /-- FAULT, STATUS[8] (R28, R30) -/
  fault : Bool
  /-- IV_IN, the IV staging window (R31) -/
  ivIn : Block
  /-- BUF (R32) -/
  buf : Memory
  /-- the MODEL's own: the number of this construction, which the free draw of BUF is taken at (log entry 6) -/
  draw : Nat
  /-- the MODEL's own: what the port has still to serve, in the order it serves it (20_memory.md R72, R76; log entry 1) -/
  port : List Event
  /-- the MODEL's own: the answer to the latest access (60_exceptions.md R270; log entry 2) -/
  answer : Option Answer
  deriving DecidableEq, Repr

/-- Why the machine stops. No command and no host access of an existing handle ever stops it. -/
inductive Fault where
  /-- The stuck state of 93_implementation_defined.md U9: a host access during construction has no move
  (70_reset_and_hazards.md R306). Raised by `serve` in Machine/Port.lean only. Safe: the model stops where the spec gives no effect. -/
  | accessDuringConstruction
  deriving DecidableEq, Repr

/-- Why the machine refuses to go on. -/
inductive Refusal where
  /-- An instruction with no meaning yet. Raised by no arm: every instruction has its meaning. Safe. -/
  | notModelled (mnemonic : String)
  /-- A construction with an illegal combination of inputs: "no handle exists: the model has no MOE state"
  (70_reset_and_hazards.md R290). Raised by `serve` in Machine/Port.lean only. Safe: the spec gives no state to go on with. -/
  | constructionRefused
  deriving DecidableEq, Repr

/-- The machine right after reset (R46), for the construction of 95_test_vectors.md V-TOY: the TOY adapter and
its key, CIPHER_ID 3, KEY_BYTES 8, both capabilities, the default build. DESIGN CHOICE (log entry 5): the construction inputs are
parameters of the spec; `construct` in Machine/Construct.lean takes any of them. -/
def State.reset : State where
  build := Config.Build.standard
  bs := 8
  cipherId := 3
  keyBytes := 8
  canEnc := true
  canDec := true
  adapter := .toy
  schedule := [0xA0, 0xA1, 0xA2, 0xA3, 0xA4, 0xA5, 0xA6, 0xA7]
  mode := 0
  iv := zeroBlock 8
  ctr := zeroBlock 8
  result := 0
  fault := false
  ivIn := zeroBlock 8
  buf := []
  draw := 0
  port := []
  answer := none

end Sys2Proof.Machine
end

