-- ==== Sys2Proof/Machine/Ops.lean ====
section
/-! DEFINITION. The named operations over registers and over BUF, and the failure primitives: `fail`
(00_scope.md R16), the fault entry (60_exceptions.md R272) and the check of the fault state (R273). MOE has no trap entry and no trap return
(R267, R268): these are all that stands in their place. -/

namespace Sys2Proof.Machine

/-! ## Registers -/

/-- `RESULT <- code(E)` with the codes of 60_exceptions.md R260. -/
def ResultCode.code : ResultCode → BitVec 4
  | .ok => 0
  | .eCmd => 1
  | .eMode => 2
  | .eUnsupported => 3
  | .eIv => 4
  | .eCap => 5
  | .eLen => 6
  | .eRange => 7
  | .eFault => 8

/-- RESULT is written with the code of an outcome (R260). -/
def State.setResult (s : State) (r : ResultCode) : State := { s with result := r.code }

/-- `FAULT <- 1` (60_exceptions.md R272). -/
def State.setFault (s : State) : State := { s with fault := true }

/-- `MODE <- m` (00_scope.md R13). -/
def State.setMode (s : State) (m : BitVec 3) : State := { s with mode := m }

/-- `IV <- b`. -/
def State.setIv (s : State) (b : Block) : State := { s with iv := b }

/-- `CTR <- b`. -/
def State.setCtr (s : State) (b : Block) : State := { s with ctr := b }

/-- `IV_IN <- b`, a host write to the staging window (10_state.md R31). -/
def State.setIvIn (s : State) (b : Block) : State := { s with ivIn := b }

/-- BUF takes new contents. -/
def State.setBuf (s : State) (m : Memory) : State := { s with buf := m }

/-- The model's port holds what is still to serve (log entry 1). -/
def State.setPort (s : State) (p : List Event) : State := { s with port := p }

/-- The port answers the access it served (log entry 2). -/
def State.setAnswer (s : State) (a : Answer) : State := { s with answer := some a }

/-! ## BUF -/

/-- What an unlisted address holds: no written byte (10_state.md R46; log entry 6). -/
def Memory.unlisted : Option Byte := none

/-- The byte written at a BUF offset since reset, if any. -/
def Memory.read (m : Memory) (off : Nat) : Option Byte :=
  match m with
  | [] => Memory.unlisted
  | (a, b) :: rest => if a = off then some b else Memory.read rest off

/-- Write one byte, keeping the offsets strictly rising. -/
def Memory.write (m : Memory) (off : Nat) (v : Byte) : Memory :=
  match m with
  | [] => [(off, v)]
  | (a, b) :: rest =>
    if off < a then (off, v) :: (a, b) :: rest
    else if off = a then (off, v) :: rest
    else (a, b) :: Memory.write rest off v

/-- Write a byte sequence at `off`, `off + 1`, ... -/
def Memory.writeBytes (m : Memory) (off : Nat) (bytes : List Byte) : Memory :=
  match bytes with
  | [] => m
  | b :: rest => Memory.writeBytes (m.write off b) (off + 1) rest

/-- The canonical form: offsets strictly rising, and no entry equal to what an unlisted offset holds. -/
abbrev Memory.wf (m : Memory) : Prop :=
  m.Pairwise (fun x y => x.1 < y.1) ∧ ∀ c ∈ m, some c.2 ≠ Memory.unlisted

/-- Byte `off` of BUF: the byte last written there, and the free draw where nothing has been written since
reset (10_state.md R46; log entry 6). -/
def State.bufByte (s : State) (off : Nat) : Byte :=
  (s.buf.read off).getD (Config.bufDraw s.draw off)

/-! ## Failure -/

/-- `fail E`: ends the command, sets RESULT and changes no other state (00_scope.md R16). -/
def fail (e : ResultCode) (s : State) : State := s.setResult e

/-- `raise Fault(MODE)`: FAULT <- 1 and RESULT <- E_FAULT, nothing else (60_exceptions.md R272). -/
def enterFault (s : State) : State := s.setFault.setResult .eFault

/-- A command as the host sees it: in the fault state it sets E_FAULT and nothing else (60_exceptions.md R273,
30_encoding.md R101), else it does `f`. It always completes (10_state.md R37). -/
def unlessFault (f : State → State) (s : State) : Host.Outcome State Fault Refusal :=
  if s.fault then .next (fail .eFault s) else .next (f s)

end Sys2Proof.Machine
end

