-- ==== Sys2Proof/Machine/Operands.lean ====
section
/-! DEFINITION. The implicit operands of the commands (30_encoding.md R94): blocks of BUF and the chaining state.
The explicit operands, IVLEN and LEN, are plain numbers the decoder assembles. -/

namespace Sys2Proof.Machine

/-- `MemRead(off, n)`: the n bytes of BUF from `off` (00_scope.md R14). -/
def State.memRead (s : State) (off n : Nat) : Block := blockOf n (fun i => s.bufByte (off + i))

/-- `MemWrite(off, n, v)`: stores the byte sequence v at `off` (00_scope.md R14). -/
def State.memWrite (s : State) (off : Nat) (v : Block) : State := s.setBuf (s.buf.writeBytes off v)

/-- The chaining state: IV and CTR together (00_scope.md R18). -/
structure Chain where
  iv : Block
  ctr : Block
  deriving DecidableEq, Repr

/-- The chaining state a block step reads. -/
def State.chain (s : State) : Chain := { iv := s.iv, ctr := s.ctr }

/-- The chaining state a block step leaves. -/
def State.setChain (s : State) (c : Chain) : State := (s.setIv c.iv).setCtr c.ctr

end Sys2Proof.Machine
end

