-- ==== Sys2Proof/Machine/Adapter.lean ====
section
/-! DEFINITION. The one-block cipher adapter wrapper (42_datapath.md R186 to R189): the two transforms the port
carries, the block size and the key setup, of an external adapter and of the test adapter TOY (95_test_vectors.md V-TOY). -/

namespace Sys2Proof.Machine

/-- A block as the function from its byte indexes (42_datapath.md R186: byte i is byte i). -/
def toFn (n : Nat) (x : Block) : Fin n → Byte := fun i => x.getD i.val 0

/-- The block of a function from byte indexes. -/
def ofFn (n : Nat) (f : Fin n → Byte) : Block :=
  blockOf n (fun i => if h : i < n then f ⟨i, h⟩ else 0)

/-- TOY's forward transform, `Enc(x)[i] = x[(i+1) mod 8] XOR K[i]` (V-TOY), for n-byte blocks. -/
def toyEnc (n : Nat) (key : List Byte) (x : Block) : Block :=
  blockOf n (fun i => x.getD ((i + 1) % n) 0 ^^^ key.getD i 0)

/-- TOY's inverse, `Dec(y)[j] = (y XOR K)[(j-1) mod 8]` (V-TOY), for n-byte blocks. -/
def toyDec (n : Nat) (key : List Byte) (y : Block) : Block :=
  blockOf n (fun j => y.getD ((j + (n - 1)) % n) 0 ^^^ key.getD ((j + (n - 1)) % n) 0)

/-- The adapter's constant `block_size` (42_datapath.md R189). TOY's is 8. -/
def blockSize : Config.Adapter → Nat
  | .toy => 8
  | .external _ n => n

/-- `key_setup(key_bytes, key_size_bits) -> schedule` (42_datapath.md R188). TOY's schedule is its key. -/
def keySetup (a : Config.Adapter) (key : List Byte) (keyBits : Nat) : List Byte :=
  match a with
  | .toy => key
  | .external id _ => Config.externalKeySetup id key keyBits

/-- `Enc_S` on n-byte blocks (00_scope.md R10); `both` says that the handle has both capabilities. -/
def adapterEnc (a : Config.Adapter) (both : Bool) (n : Nat) (schedule : List Byte) (x : Block) : Block :=
  match a with
  | .toy => toyEnc n schedule x
  | .external id _ =>
    if both then ofFn n (Config.cipher id n schedule (toFn n x))
    else ofFn n (Config.oneWayEnc id n schedule (toFn n x))

/-- `Dec_S` on n-byte blocks (00_scope.md R10). -/
def adapterDec (a : Config.Adapter) (both : Bool) (n : Nat) (schedule : List Byte) (y : Block) : Block :=
  match a with
  | .toy => toyDec n schedule y
  | .external id _ =>
    if both then ofFn n ((Config.cipher id n schedule).symm (toFn n y))
    else ofFn n (Config.oneWayDec id n schedule (toFn n y))

/-- `Enc(x)`, the adapter call of the handle (42_datapath.md R186, R187). -/
def State.enc (s : State) (x : Block) : Block :=
  adapterEnc s.adapter (s.canEnc && s.canDec) s.bs s.schedule x

/-- `Dec(x)`, the adapter call of the handle (42_datapath.md R186, R187). -/
def State.dec (s : State) (x : Block) : Block :=
  adapterDec s.adapter (s.canEnc && s.canDec) s.bs s.schedule x

end Sys2Proof.Machine
end

