-- ==== Sys2Proof/Machine/Construct.lean ====
section
/-! DEFINITION. Construction, which is MOE's reset (70_reset_and_hazards.md R290, 10_state.md R46). -/

namespace Sys2Proof.Machine

/-- `BS_of(cipher_id)`: the block size a CIPHER_ID requires, for the codes that are ever reported
(44_introspection.md R243); none for RC4 and the reserved codes. -/
def cipherBlockSize (cipherId : Nat) : Option Nat :=
  match cipherId with
  | 0 => some 16
  | 1 => some 16
  | 2 => some 16
  | 3 => some 8
  | 4 => some 8
  | 5 => some 8
  | _ => none

/-- The combinations R290 does not refuse. -/
def Inputs.legal (i : Inputs) : Bool :=
  (decide (blockSize i.adapter = 8) || decide (blockSize i.adapter = 16))
    && decide (cipherBlockSize i.cipherId = some (blockSize i.adapter))
    && decide (1 ≤ i.keyBytes ∧ i.keyBytes ≤ 8191)

/-- The state a construction leaves (R290, 10_state.md R46): every element at its reset value, the constants
and flags at the inputs, S from the adapter's key setup. BUF has no written byte, so every byte of it is a draw of this construction
(log entry 6). The model's port is handed on, and no access has been answered yet. -/
def constructed (build : Config.Build) (draw : Nat) (port : List Event) (i : Inputs) : State where
  build := build
  bs := blockSize i.adapter
  cipherId := BitVec.ofNat 8 i.cipherId
  keyBytes := i.keyBytes
  canEnc := i.canEnc
  canDec := i.canDec
  adapter := i.adapter
  schedule := keySetup i.adapter i.key (8 * i.keyBytes)
  mode := 0
  iv := zeroBlock (blockSize i.adapter)
  ctr := zeroBlock (blockSize i.adapter)
  result := ResultCode.ok.code
  fault := false
  ivIn := zeroBlock (blockSize i.adapter)
  buf := []
  draw := draw
  port := port
  answer := none

/-- Construction (R290): none where it refuses, so that no handle exists. -/
def construct (build : Config.Build) (draw : Nat) (port : List Event) (i : Inputs) : Option State :=
  if i.legal then some (constructed build draw port i) else none

/-- The construction inputs of the handle TOY (95_test_vectors.md V-TOY). -/
def toyInputs : Inputs where
  adapter := .toy
  key := [0xA0, 0xA1, 0xA2, 0xA3, 0xA4, 0xA5, 0xA6, 0xA7]
  canEnc := true
  canDec := true
  cipherId := 3
  keyBytes := 8

end Sys2Proof.Machine
end

