-- ==== Sys2Proof/Machine/Flags.lean ====
section
/-! DEFINITION. The status word, the capability flags, and the mode codes: which are legal and which datapath
each selects (10_state.md R25 to R28, R39; 42_datapath.md R190; 41_decrypt.md R151). -/

namespace Sys2Proof.Machine

/-- A 1-bit flag as a number. -/
def bitNat (b : Bool) : Nat := if b then 1 else 0

/-- STATUS: RESULT in [3:0], FAULT in [8], the rest 0 (10_state.md R28). -/
def State.statusWord (s : State) : Word := BitVec.ofNat 32 (s.result.toNat + 2 ^ 8 * bitNat s.fault)

/-- CAP: CAN_ENC in [0], CAN_DEC in [1], the rest 0 (10_state.md R39). -/
def State.capWord (s : State) : Word := BitVec.ofNat 32 (bitNat s.canEnc + 2 * bitNat s.canDec)

/-- The rows of the router's table (42_datapath.md R190). The CTR-LE code selects one of two rows, by policy. -/
inductive Route where
  | ecb
  | cbc
  | pcbc
  | cfb
  | ofb
  | ctr
  /-- CTR-LE under LITTLE_ENDIAN -/
  | ctrLe
  /-- CTR-LE under ECB_FALLBACK -/
  | ecbFallback
  deriving DecidableEq, Repr

/-- The router's row for a mode code under a policy; none for a code that is not legal (10_state.md R25, R26). -/
def route (policy : Config.CtrlePolicy) (mode : BitVec 3) : Option Route :=
  match mode.toNat with
  | 0 => some .ecb
  | 1 => some .cbc
  | 2 => some .pcbc
  | 3 => some .cfb
  | 4 => some .ofb
  | 5 => some .ctr
  | 6 =>
    match policy with
    | .reject => none
    | .littleEndian => some .ctrLe
    | .ecbFallback => some .ecbFallback
  | _ => none

/-- `legal(MODE)` (10_state.md R26). -/
def legalMode (policy : Config.CtrlePolicy) (mode : BitVec 3) : Bool := (route policy mode).isSome

/-- The rows whose DECRYPT calls the forward transform (41_decrypt.md R151, R159). -/
def Route.keystream : Route → Bool
  | .ecb => false
  | .cbc => false
  | .pcbc => false
  | .cfb => true
  | .ofb => true
  | .ctr => true
  | .ctrLe => true
  | .ecbFallback => false

/-- "CAN_ENC = 1 too, if MODE is CFB, OFB or CTR, or if MODE is CTR-LE under LITTLE_ENDIAN" (R151). A code that
is not legal is none of these. -/
def State.decNeedsEnc (s : State) : Bool :=
  match route s.build.ctrle s.mode with
  | some p => p.keystream
  | none => false

/-- `dec_capable()` (41_decrypt.md R151). -/
def State.decCapable (s : State) : Bool := s.canDec && (s.canEnc || !s.decNeedsEnc)

end Sys2Proof.Machine
end

