-- ==== Sys2Proof/Machine/Datapath.lean ====
section
/-! DEFINITION. The XOR combiner, the counter increments and the router (42_datapath.md R180 to R190). -/

namespace Sys2Proof.Machine

/-- `xor_block(a, b)`, byte by byte (42_datapath.md R180). -/
def xorBlock (a b : Block) : Block := List.zipWith (fun x y => x ^^^ y) a b

/-- `val_be(c)`: the block as a big-endian unsigned number (10_state.md R24, 42_datapath.md R183). -/
def valBe : Block → Nat
  | [] => 0
  | b :: rest => b.toNat * 256 ^ rest.length + valBe rest

/-- `val_le(c)`: the block as a little-endian unsigned number (42_datapath.md R184). -/
def valLe : Block → Nat
  | [] => 0
  | b :: rest => b.toNat + 256 * valLe rest

/-- The loop of `inc_be` with its carry: the last byte is incremented first, a byte that wraps carries into the
one before it, and the flag says whether the first byte of the part wrapped (42_datapath.md R182). -/
def incBeCarry : Block → Block × Bool
  | [] => ([], true)
  | b :: rest =>
    let r := incBeCarry rest
    if r.2 then ((b + 1) :: r.1, decide (b + 1 = 0)) else (b :: r.1, false)

/-- `inc_be(c)`: the carry out of the first byte is discarded (42_datapath.md R182, R183). -/
def incBe (c : Block) : Block := (incBeCarry c).1

/-- `inc_le(c)`: from the first byte, carrying into the next while bytes wrap; the carry out of the last byte is
discarded (42_datapath.md R184). -/
def incLe : Block → Block
  | [] => []
  | b :: rest => if b + 1 = 0 then 0 :: incLe rest else (b + 1) :: rest

/-- The counter-mode cipher input, a temporary (42_datapath.md R185). -/
def counterInput (c : Chain) : Block := xorBlock c.ctr c.iv

/-- The direction of a block command. -/
inductive Dir where
  | encrypt
  | decrypt
  deriving DecidableEq, Repr

/-- One call of the adapter port: `fwd` is Enc, `inv` is Dec (42_datapath.md R186). -/
inductive Call where
  | fwd (x : Block)
  | inv (x : Block)
  deriving DecidableEq, Repr

/-- The router's table: the one adapter call of a block step, by mode and direction (42_datapath.md R190). -/
def routerCall (d : Dir) (p : Route) (c : Chain) (x : Block) : Call :=
  match d, p with
  | .encrypt, .ecb => .fwd x
  | .encrypt, .cbc => .fwd (xorBlock x c.iv)
  | .encrypt, .pcbc => .fwd (xorBlock x c.iv)
  | .encrypt, .cfb => .fwd c.iv
  | .encrypt, .ofb => .fwd c.iv
  | .encrypt, .ctr => .fwd (counterInput c)
  | .encrypt, .ctrLe => .fwd (counterInput c)
  | .encrypt, .ecbFallback => .fwd x
  | .decrypt, .ecb => .inv x
  | .decrypt, .cbc => .inv x
  | .decrypt, .pcbc => .inv x
  | .decrypt, .cfb => .fwd c.iv
  | .decrypt, .ofb => .fwd c.iv
  | .decrypt, .ctr => .fwd (counterInput c)
  | .decrypt, .ctrLe => .fwd (counterInput c)
  | .decrypt, .ecbFallback => .inv x

end Sys2Proof.Machine
end

