-- ==== Sys2Proof/Machine/Blocks.lean ====
section
/-! DEFINITION. The per-block rules of every mode and direction (40_encrypt.md R123 to R129, 41_decrypt.md R152 to
R158), and the block loop and the checks that ENCRYPT and DECRYPT share (40_encrypt.md R120, 41_decrypt.md R150). -/

namespace Sys2Proof.Machine

/-! ## EncBlock, with `enc` the adapter's forward transform -/

/-- ECB (R123): `out = Enc(in)`. -/
def encEcb (enc : Block → Block) (c : Chain) (x : Block) : Block × Chain := (enc x, c)

/-- CBC (R124): `out = Enc(in XOR IV); IV <- out`. -/
def encCbc (enc : Block → Block) (c : Chain) (x : Block) : Block × Chain :=
  let out := enc (xorBlock x c.iv)
  (out, { c with iv := out })

/-- PCBC (R125): `out = Enc(in XOR IV); IV <- in XOR out`. -/
def encPcbc (enc : Block → Block) (c : Chain) (x : Block) : Block × Chain :=
  let out := enc (xorBlock x c.iv)
  (out, { c with iv := xorBlock x out })

/-- CFB (R126): `ks = Enc(IV); out = in XOR ks; IV <- out`. -/
def encCfb (enc : Block → Block) (c : Chain) (x : Block) : Block × Chain :=
  let ks := enc c.iv
  let out := xorBlock x ks
  (out, { c with iv := out })

/-- OFB (R127): `IV <- Enc(IV); out = in XOR IV`. -/
def encOfb (enc : Block → Block) (c : Chain) (x : Block) : Block × Chain :=
  let iv := enc c.iv
  (xorBlock x iv, { c with iv := iv })

/-- CTR (R128): `ks = Enc(CTR XOR IV); out = in XOR ks; CTR <- inc_be(CTR)`. -/
def encCtr (enc : Block → Block) (c : Chain) (x : Block) : Block × Chain :=
  let ks := enc (counterInput c)
  (xorBlock x ks, { c with ctr := incBe c.ctr })

/-- CTR-LE under LITTLE_ENDIAN (R129). -/
def encCtrLe (enc : Block → Block) (c : Chain) (x : Block) : Block × Chain :=
  let ks := enc (counterInput c)
  (xorBlock x ks, { c with ctr := incLe c.ctr })

/-- CTR-LE under ECB_FALLBACK (R129): `out = Enc(in)`, no state change. -/
def encEcbFallback (enc : Block → Block) (c : Chain) (x : Block) : Block × Chain := (enc x, c)

/-- `EncBlock(MODE, in)`, by the row the mode selects. -/
def encBlock (p : Route) (enc : Block → Block) (c : Chain) (x : Block) : Block × Chain :=
  match p with
  | .ecb => encEcb enc c x
  | .cbc => encCbc enc c x
  | .pcbc => encPcbc enc c x
  | .cfb => encCfb enc c x
  | .ofb => encOfb enc c x
  | .ctr => encCtr enc c x
  | .ctrLe => encCtrLe enc c x
  | .ecbFallback => encEcbFallback enc c x

/-! ## DecBlock, with `enc` and `dec` the adapter's transforms -/

/-- ECB (R152): `out = Dec(in)`. -/
def decEcb (dec : Block → Block) (c : Chain) (x : Block) : Block × Chain := (dec x, c)

/-- CBC (R153): `save = IV; IV <- in; out = Dec(in) XOR save`. -/
def decCbc (dec : Block → Block) (c : Chain) (x : Block) : Block × Chain :=
  (xorBlock (dec x) c.iv, { c with iv := x })

/-- PCBC (R154): `out = Dec(in) XOR IV; IV <- in XOR out`. -/
def decPcbc (dec : Block → Block) (c : Chain) (x : Block) : Block × Chain :=
  let out := xorBlock (dec x) c.iv
  (out, { c with iv := xorBlock x out })

/-- CFB (R155): `ks = Enc(IV); IV <- in; out = in XOR ks`. The forward transform, not Dec. -/
def decCfb (enc : Block → Block) (c : Chain) (x : Block) : Block × Chain :=
  let ks := enc c.iv
  (xorBlock x ks, { c with iv := x })

/-- OFB (R156): `IV <- Enc(IV); out = in XOR IV`. The forward transform. -/
def decOfb (enc : Block → Block) (c : Chain) (x : Block) : Block × Chain :=
  let iv := enc c.iv
  (xorBlock x iv, { c with iv := iv })

/-- CTR (R157): `ks = Enc(CTR XOR IV); out = in XOR ks; CTR <- inc_be(CTR)`. The forward transform. -/
def decCtr (enc : Block → Block) (c : Chain) (x : Block) : Block × Chain :=
  let ks := enc (counterInput c)
  (xorBlock x ks, { c with ctr := incBe c.ctr })

/-- CTR-LE under LITTLE_ENDIAN (R158). The forward transform. -/
def decCtrLe (enc : Block → Block) (c : Chain) (x : Block) : Block × Chain :=
  let ks := enc (counterInput c)
  (xorBlock x ks, { c with ctr := incLe c.ctr })

/-- CTR-LE under ECB_FALLBACK (R158): `out = Dec(in)`, no state change. -/
def decEcbFallback (dec : Block → Block) (c : Chain) (x : Block) : Block × Chain := (dec x, c)

/-- `DecBlock(MODE, in)`, by the row the mode selects. -/
def decBlock (p : Route) (enc dec : Block → Block) (c : Chain) (x : Block) : Block × Chain :=
  match p with
  | .ecb => decEcb dec c x
  | .cbc => decCbc dec c x
  | .pcbc => decPcbc dec c x
  | .cfb => decCfb enc c x
  | .ofb => decOfb enc c x
  | .ctr => decCtr enc c x
  | .ctrLe => decCtrLe enc c x
  | .ecbFallback => decEcbFallback dec c x

/-! ## The block loop -/

/-- The block rule of a direction, over the adapter bound to the handle. -/
def State.block (s : State) (d : Dir) (p : Route) (c : Chain) (x : Block) : Block × Chain :=
  match d with
  | .encrypt => encBlock p s.enc c x
  | .decrypt => decBlock p s.enc s.dec c x

/-- Block k of a command: `in = MemRead(k*BS, BS)`, the block rule, `MemWrite(k*BS, BS, out)` (20_memory.md R68). -/
def blockStep (d : Dir) (p : Route) (k : Nat) (s : State) : State :=
  let r := s.block d p s.chain (s.memRead (k * s.bs) s.bs)
  (s.setChain r.2).memWrite (k * s.bs) r.1

/-- Blocks k, k+1, ..., k+n-1, in ascending order (10_state.md R21). -/
def runBlocks (d : Dir) (p : Route) : Nat → Nat → State → State
  | 0, _, s => s
  | n + 1, k, s => runBlocks d p n (k + 1) (blockStep d p k s)

/-! ## The command -/

/-- The capability check of a direction (40_encrypt.md R121, 41_decrypt.md R151). -/
def State.capable (s : State) : Dir → Bool
  | .encrypt => s.canEnc
  | .decrypt => s.decCapable

/-- The argument checks, in their priority: E_CAP, E_LEN, E_RANGE (60_exceptions.md R264). -/
def cryptError (d : Dir) (len : Nat) (s : State) : Option ResultCode :=
  if s.capable d = false then some .eCap
  else if len % s.bs ≠ 0 then some .eLen
  else if s.build.nbuf < len then some .eRange
  else none

/-- ENCRYPT and DECRYPT (40_encrypt.md R120, 41_decrypt.md R150): the checks, the fault entry of an illegal
MODE (60_exceptions.md R272), then LEN / BS blocks in place and `RESULT <- OK`. -/
def crypt (d : Dir) (len : Nat) (s : State) : State :=
  match cryptError d len s with
  | some e => fail e s
  | none =>
    match route s.build.ctrle s.mode with
    | none => enterFault s
    | some p => (runBlocks d p (len / s.bs) 0 s).setResult .ok

end Sys2Proof.Machine
end

