-- ==== Sys2Proof/Machine/Decrypt.lean ====
section
/-! DEFINITION. The meaning of DEC (41_decrypt.md). -/

namespace Sys2Proof.Machine

/-- DEC: DECRYPT(LEN) (41_decrypt.md R150). -/
def execDec (len : Nat) (s : State) : Host.Outcome State Fault Refusal := unlessFault (crypt .decrypt len) s

end Sys2Proof.Machine
end

