-- ==== Sys2Proof/Machine/Encrypt.lean ====
section
/-! DEFINITION. The meaning of ENC (40_encrypt.md). -/

namespace Sys2Proof.Machine

/-- ENC: ENCRYPT(LEN) (40_encrypt.md R120). -/
def execEnc (len : Nat) (s : State) : Host.Outcome State Fault Refusal := unlessFault (crypt .encrypt len) s

end Sys2Proof.Machine
end

