-- ==== Sys2Proof/Machine/SetMode.lean ====
section
/-! DEFINITION. SET_MODE: the common sequence and the meaning of every SETMODE row (43_configuration.md R210 to
R220). -/

namespace Sys2Proof.Machine

/-- The checks of SET_MODE, in their priority: E_MODE, E_UNSUPPORTED, E_IV (43_configuration.md R210;
60_exceptions.md R263). ECB is never refused (R213). -/
def setModeError (m : BitVec 3) (ivlen : Nat) (s : State) : Option ResultCode :=
  if m = 7 then some .eMode
  else if m = 6 ∧ s.build.ctrle = .reject then some .eUnsupported
  else if m = 0 then none
  else if ivlen ≠ s.bs then some .eIv
  else none

/-- The success path for ECB (R213): `IV <- 0^BS; CTR <- 0^BS; MODE <- 0; RESULT <- OK`. -/
def armEcb (s : State) : State :=
  (((s.setIv (zeroBlock s.bs)).setCtr (zeroBlock s.bs)).setMode 0).setResult .ok

/-- The success path for a non-ECB mode (R215): IV and CTR are zeroed, then `IV <- IV_IN[0 .. BS-1]`,
`MODE <- m`, `RESULT <- OK`. -/
def armIv (m : BitVec 3) (s : State) : State :=
  let zeroed := (s.setIv (zeroBlock s.bs)).setCtr (zeroBlock s.bs)
  ((zeroed.setIv (zeroed.ivIn.take zeroed.bs)).setMode m).setResult .ok

/-- `SET_MODE(m, L)`, the common sequence of every SETMODE row (R210). -/
def setMode (m : BitVec 3) (ivlen : Nat) (s : State) : State :=
  match setModeError m ivlen s with
  | some e => fail e s
  | none => if m = 0 then armEcb s else armIv m s

/-- SETMODE.ECB (R213). -/
def execSetmodeEcb (ivlen : Nat) (s : State) : Host.Outcome State Fault Refusal := unlessFault (setMode 0 ivlen) s

/-- SETMODE.CBC (R214, R215). -/
def execSetmodeCbc (ivlen : Nat) (s : State) : Host.Outcome State Fault Refusal := unlessFault (setMode 1 ivlen) s

/-- SETMODE.PCBC (R214, R215). -/
def execSetmodePcbc (ivlen : Nat) (s : State) : Host.Outcome State Fault Refusal := unlessFault (setMode 2 ivlen) s

/-- SETMODE.CFB (R214, R215). -/
def execSetmodeCfb (ivlen : Nat) (s : State) : Host.Outcome State Fault Refusal := unlessFault (setMode 3 ivlen) s

/-- SETMODE.OFB (R214, R215). -/
def execSetmodeOfb (ivlen : Nat) (s : State) : Host.Outcome State Fault Refusal := unlessFault (setMode 4 ivlen) s

/-- SETMODE.CTR (R214, R215). -/
def execSetmodeCtr (ivlen : Nat) (s : State) : Host.Outcome State Fault Refusal := unlessFault (setMode 5 ivlen) s

/-- SETMODE.CTRLE (R212). -/
def execSetmodeCtrle (ivlen : Nat) (s : State) : Host.Outcome State Fault Refusal := unlessFault (setMode 6 ivlen) s

/-- SETMODE.BAD (R211): E_MODE. -/
def execSetmodeBad (ivlen : Nat) (s : State) : Host.Outcome State Fault Refusal := unlessFault (setMode 7 ivlen) s

end Sys2Proof.Machine
end

