-- ==== Sys2Proof/Machine/Dispatch.lean ====
section
/-! DEFINITION. One arm per command: the mode-setting rows, then the block commands (30_encoding.md R95). -/

namespace Sys2Proof.Machine

def exec (i : Instr) (s : State) : Host.Outcome State Fault Refusal :=
  match i with
  -- 43_configuration.md
  | .setmodeEcb ivlen => Sys2Proof.Machine.execSetmodeEcb ivlen s
  | .setmodeCbc ivlen => Sys2Proof.Machine.execSetmodeCbc ivlen s
  | .setmodePcbc ivlen => Sys2Proof.Machine.execSetmodePcbc ivlen s
  | .setmodeCfb ivlen => Sys2Proof.Machine.execSetmodeCfb ivlen s
  | .setmodeOfb ivlen => Sys2Proof.Machine.execSetmodeOfb ivlen s
  | .setmodeCtr ivlen => Sys2Proof.Machine.execSetmodeCtr ivlen s
  | .setmodeCtrle ivlen => Sys2Proof.Machine.execSetmodeCtrle ivlen s
  | .setmodeBad ivlen => Sys2Proof.Machine.execSetmodeBad ivlen s
  -- 40_encrypt.md, 41_decrypt.md
  | .enc len => Sys2Proof.Machine.execEnc len s
  | .dec len => Sys2Proof.Machine.execDec len s

end Sys2Proof.Machine
end

