-- ==== Sys2Proof/Machine/Introspect.lean ====
section
/-! DEFINITION. What the registers and windows of the port read as (10_state.md R28, R36 to R44;
44_introspection.md R240 to R246). Every reserved bit reads as 0. -/

namespace Sys2Proof.Machine

/-- MODEREG: MODE in [2:0] (10_state.md R38). -/
def State.modeWord (s : State) : Word := BitVec.ofNat 32 s.mode.toNat

/-- CIPHER: CIPHER_ID in [7:0] (10_state.md R40). -/
def State.cipherWord (s : State) : Word := BitVec.ofNat 32 s.cipherId.toNat

/-- A word of two 16-bit fields. -/
def wordOfHalves (low high : Nat) : Word := BitVec.ofNat 32 (low % 2 ^ 16 + 2 ^ 16 * (high % 2 ^ 16))

/-- BLKSZ: BS in [15:0], 8·BS in [31:16] (10_state.md R41). -/
def State.blockSizeWord (s : State) : Word := wordOfHalves s.bs (8 * s.bs)

/-- KEYSZ: KEY_BYTES in [15:0], KEY_BITS = 8·KEY_BYTES in [31:16] (10_state.md R42, 44_introspection.md R245). -/
def State.keySizeWord (s : State) : Word := wordOfHalves s.keyBytes (8 * s.keyBytes)

/-- Byte i of a window over a BS-byte register: bytes at and above BS read as 0 (10_state.md R43, R44;
20_memory.md R67). -/
def windowByte (bs : Nat) (b : Block) (i : Nat) : Byte := if i < bs then b.getD i 0 else 0

end Sys2Proof.Machine
end

