-- ==== Sys2Proof/Machine/Port.lean ====
section
/-! DEFINITION. The host port: the address map (10_state.md R36), the checks of an access (20_memory.md R66), reads and
writes, the CMD write (30_encoding.md R101), and what the port does with each interaction (70_reset_and_hazards.md R306). -/

namespace Sys2Proof.Machine

/-! ## The address map -/

/-- The word registers at 0x000 .. 0x01B (10_state.md R36). -/
inductive Reg where
  | cmd
  | status
  | modeReg
  | cap
  | cipher
  | blkSz
  | keySz
  deriving DecidableEq, Repr

/-- What an offset of the port space names (10_state.md R36). A window's offset carries its byte index. -/
inductive Region where
  | reg (r : Reg)
  | ivIn (i : Nat)
  | ivView (i : Nat)
  | ctrView (i : Nat)
  | buf (off : Nat)
  | reserved
  deriving DecidableEq, Repr

/-- The register map (10_state.md R36), for a buffer of nbuf bytes. -/
def region (nbuf a : Nat) : Region :=
  if a < 0x004 then .reg .cmd
  else if a < 0x008 then .reg .status
  else if a < 0x00C then .reg .modeReg
  else if a < 0x010 then .reg .cap
  else if a < 0x014 then .reg .cipher
  else if a < 0x018 then .reg .blkSz
  else if a < 0x01C then .reg .keySz
  else if a < 0x040 then .reserved
  else if a < 0x050 then .ivIn (a - 0x040)
  else if a < 0x060 then .ivView (a - 0x050)
  else if a < 0x070 then .ctrView (a - 0x060)
  else if a < 0x100 then .reserved
  else if a < 0x100 + nbuf then .buf (a - 0x100)
  else .reserved

/-- The width in bytes (20_memory.md R61). -/
def Width.bytes : Width → Nat
  | .w8 => 1
  | .w16 => 2
  | .w32 => 4

/-! ## The checks of an access -/

/-- The causes of a bus error (60_exceptions.md R270). -/
inductive BusCause where
  /-- misalignment (20_memory.md R61) -/
  | misaligned
  /-- a reserved offset (10_state.md R45) -/
  | reserved
  /-- an 8-bit or 16-bit access to a register at 0x000 .. 0x018 (20_memory.md R62) -/
  | narrow
  /-- a write to a read-only register or view (10_state.md R36) -/
  | readOnly
  deriving DecidableEq, Repr

/-- The address of an access. -/
def Access.addr : Access → Addr
  | .read a _ => a
  | .write a _ _ => a

/-- The width of an access. -/
def Access.width : Access → Width
  | .read _ w => w
  | .write _ w _ => w

/-- Whether an access is a write. -/
def Access.isWrite : Access → Bool
  | .read _ _ => false
  | .write _ _ _ => true

/-- What only takes 32-bit accesses (20_memory.md R62). -/
def Region.wordOnly : Region → Bool
  | .reg _ => true
  | .ivIn _ => false
  | .ivView _ => false
  | .ctrView _ => false
  | .buf _ => false
  | .reserved => false

/-- What no host access may write (10_state.md R36, "RO"). -/
def Region.readOnly : Region → Bool
  | .reg .cmd => false
  | .reg .status => true
  | .reg .modeReg => true
  | .reg .cap => true
  | .reg .cipher => true
  | .reg .blkSz => true
  | .reg .keySz => true
  | .ivIn _ => false
  | .ivView _ => true
  | .ctrView _ => true
  | .buf _ => false
  | .reserved => false

/-- The checks of a host access in their fixed order; "the first check that fails decides the outcome"
(20_memory.md R66). -/
def busError (nbuf : Nat) (a : Access) : Option BusCause :=
  if a.addr.toNat % a.width.bytes ≠ 0 then some .misaligned
  else if region nbuf a.addr.toNat = .reserved then some .reserved
  else if (region nbuf a.addr.toNat).wordOnly = true ∧ a.width ≠ .w32 then some .narrow
  else if a.isWrite = true ∧ (region nbuf a.addr.toNat).readOnly = true then some .readOnly
  else none

/-! ## Reads -/

/-- The value of a word register. CMD reads as 0 (10_state.md R37). -/
def State.regWord (s : State) : Reg → Word
  | .cmd => 0
  | .status => s.statusWord
  | .modeReg => s.modeWord
  | .cap => s.capWord
  | .cipher => s.cipherWord
  | .blkSz => s.blockSizeWord
  | .keySz => s.keySizeWord

/-- Byte a of the port space, through its window (20_memory.md R63, R67). A register is read whole; its bytes
are those of its word. -/
def State.portByte (s : State) (a : Nat) : Byte :=
  match region s.build.nbuf a with
  | .reg r => lane (s.regWord r) (a % 4)
  | .ivIn i => windowByte s.bs s.ivIn i
  | .ivView i => windowByte s.bs s.iv i
  | .ctrView i => windowByte s.bs s.ctr i
  | .buf off => s.bufByte off
  | .reserved => 0

/-- `sum over j of b[j]·256^j`: bytes on their data lanes, the lowest address least significant (20_memory.md R63). -/
def laneSum : List Byte → Nat
  | [] => 0
  | b :: rest => b.toNat + 2 ^ 8 * laneSum rest

/-- The data of a read: `zext_32(sum over j < w of byte(a+j)·256^j)` (20_memory.md R63). -/
def State.readWord (s : State) (a : Nat) (w : Width) : Word :=
  BitVec.ofNat 32 (laneSum (blockOf w.bytes (fun j => s.portByte (a + j))))

/-! ## Writes -/

/-- Store one byte at a port address: in IV_IN below BS, in BUF, and nowhere else (20_memory.md R63, R67). -/
def storeByte (a : Nat) (v : Byte) (s : State) : State :=
  match region s.build.nbuf a with
  | .ivIn i => if i < s.bs then s.setIvIn (s.ivIn.set i v) else s
  | .buf off => s.setBuf (s.buf.write off v)
  | .reg _ => s
  | .ivView _ => s
  | .ctrView _ => s
  | .reserved => s

/-- Store `v[8j+7 : 8j]` into byte a+j for each j < n, from j on (20_memory.md R63). -/
def storeLanes (a : Nat) (v : Word) : Nat → Nat → State → State
  | 0, _, s => s
  | n + 1, j, s => storeLanes a v n (j + 1) (storeByte (a + j) (lane v j) s)

/-! ## The CMD write -/

/-- A word that is no command: E_FAULT in the fault state, else E_CMD, and nothing else (30_encoding.md R97,
R98; 60_exceptions.md R263, R273). -/
def illegalCommand (s : State) : Host.Outcome State Fault Refusal := unlessFault (fail .eCmd) s

/-- `execute(w)` (30_encoding.md R101). The FAULT check that R101 makes first is made by every meaning
(`unlessFault`), with the same outcome. -/
def command (w : Word) (s : State) : Host.Outcome State Fault Refusal :=
  match decode w with
  | .ok i => exec i s
  | .error _ => illegalCommand s

/-! ## The access -/

/-- The port's acknowledgement of a write. -/
def Answer.written : Answer := { error := false, data := 0 }

/-- A bus error: "a read returns the data value 0" (60_exceptions.md R270). -/
def Answer.busError : Answer := { error := true, data := 0 }

/-- The port answers when the command is complete (10_state.md R37). -/
def answered (a : Answer) (o : Host.Outcome State Fault Refusal) : Host.Outcome State Fault Refusal :=
  match o with
  | .next s => .next (s.setAnswer a)
  | .fault f => .fault f
  | .refused r => .refused r

/-- One host access (20_memory.md R66): the checks, then the read or the write. -/
def hostAccess (a : Access) (s : State) : Host.Outcome State Fault Refusal :=
  match busError s.build.nbuf a with
  | some _ => .next (s.setAnswer .busError)
  | none =>
    match a with
    | .read addr w => .next (s.setAnswer { error := false, data := s.readWord addr.toNat w })
    | .write addr w v =>
      if region s.build.nbuf addr.toNat = .reg .cmd then answered .written (command v s)
      else .next ((storeLanes addr.toNat v w.bytes 0 s).setAnswer .written)

/-! ## The port's turn -/

/-- The interaction the port serves next, and the state without it (20_memory.md R72). -/
def State.nextEvent (s : State) : Option (Event × State) :=
  match s.port with
  | [] => none
  | e :: rest => some (e, s.setPort rest)

/-- What MOE does at one interaction (70_reset_and_hazards.md R306). A construction replaces all state of the
handle and takes a fresh draw for BUF (R290); a release touches nothing (R292); an access during construction has no move (93 U9). -/
def serve (e : Event) (s : State) : Host.Outcome State Fault Refusal :=
  match e with
  | .access a => hostAccess a s
  | .construct inputs =>
    match construct s.build (s.draw + 1) s.port inputs with
    | some t => .next t
    | none => .refused .constructionRefused
  | .release => .next s
  | .accessDuringConstruction _ => .fault .accessDuringConstruction

/-- The CMD write of a word given by the table's bits. -/
def commandWrite (nbits w : Nat) : Event := .access (.write 0x000 .w32 (BitVec.ofNat 32 (w % 2 ^ nbits)))

end Sys2Proof.Machine
end

