-- ==== Sys2Proof/Machine/Step.lean ====
section
/-! DEFINITION. One step: the port serves its next interaction, whole (20_memory.md R71, R72; 42_datapath.md R193). -/

namespace Sys2Proof.Machine

/-- With nothing to serve, MOE is idle and waits (70_reset_and_hazards.md R291). -/
def step (s : State) : Host.Outcome State Fault Refusal :=
  match s.nextEvent with
  | none => .next s
  | some (e, s') => serve e s'

/-- MOE fetches nothing: a command word comes to it by a CMD write (10_state.md R21, R37), so the word is put
first in the port's order (log entry 1). -/
def State.withFetchWord (s : State) (nbits w : Nat) : State := s.setPort (commandWrite nbits w :: s.port)

end Sys2Proof.Machine
end

