-- ==== Sys2Proof/Machine/Driver.lean ====
section
/-! DEFINITION. The host's side, outside the engine: the statements of the host-program language and the accesses they
perform (30_encoding.md R102, R103), and the duties of the host driver: mode names (43_configuration.md R221), padding and chunking
(40_encrypt.md R122), the describe record (44_introspection.md R247), the release procedure (70_reset_and_hazards.md R292). Nothing in the machine calls this file. -/

namespace Sys2Proof.Machine

/-! ## The host-program language -/

/-- A mode name, as characters. -/
abbrev Name := List Char

/-- The mode argument of `setmode`: a name, or `#n` for the raw code (R102). -/
inductive ModeArg where
  | name (n : Name)
  | raw (code : Nat)
  deriving DecidableEq, Repr

/-- A statement (R102). -/
inductive Stmt where
  | setmode (m : ModeArg) (ivlen : Nat)
  | enc (len : Nat)
  | dec (len : Nat)
  | cmd (word : Word)
  | wr (width : Width) (addr : Nat) (v : Word)
  | rd (width : Width) (addr : Nat)
  deriving DecidableEq, Repr

/-- `code(M)` of the assembler's mode names, which write CTR-LE without the hyphen (R96, R102). -/
def assemblerCode (m : ModeArg) : Option Nat :=
  match m with
  | .raw code => if code < 8 then some code else none
  | .name n =>
    if n = ['E', 'C', 'B'] then some 0
    else if n = ['C', 'B', 'C'] then some 1
    else if n = ['P', 'C', 'B', 'C'] then some 2
    else if n = ['C', 'F', 'B'] then some 3
    else if n = ['O', 'F', 'B'] then some 4
    else if n = ['C', 'T', 'R'] then some 5
    else if n = ['C', 'T', 'R', 'L', 'E'] then some 6
    else none

/-- An address the assembler accepts: a 16-bit offset, aligned to the width (R102, 20_memory.md R61). -/
def assemblerAddr (width : Width) (addr : Nat) : Option Addr :=
  if addr < 65536 ∧ addr % width.bytes = 0 then some (BitVec.ofNat 16 addr) else none

/-- The 32-bit CMD write of a word. -/
def writeCommand (w : Word) : Access := .write 0x000 .w32 w

/-- The host access a statement performs; none where the assembler refuses it, never truncating (R102). -/
def assemble (st : Stmt) : Option Access :=
  match st with
  | .setmode m ivlen =>
    match assemblerCode m with
    | some code => if ivlen < 256 then some (writeCommand (formatM code ivlen)) else none
    | none => none
  | .enc len => if len < 65536 then some (writeCommand (formatD 2 len)) else none
  | .dec len => if len < 65536 then some (writeCommand (formatD 3 len)) else none
  | .cmd word => some (writeCommand word)
  | .wr width addr v => (assemblerAddr width addr).map (fun a => .write a width v)
  | .rd width addr => (assemblerAddr width addr).map (fun a => .read a width)

/-- `wrbytes <addr>, <bytes>`, four bytes a word; none unless their number is a multiple of 4 (R103). -/
def wrbytes (addr : Nat) : List Byte → Option (List Stmt)
  | [] => some []
  | b0 :: b1 :: b2 :: b3 :: rest =>
    (wrbytes (addr + 4) rest).map (fun l => .wr .w32 addr (wordOfLanes b0 b1 b2 b3) :: l)
  | _ => none

/-- `rdbytes <addr>, <n>`, for n = 4·words (R103). -/
def rdbytes (addr words : Nat) : List Stmt := (List.range words).map (fun j => .rd .w32 (addr + 4 * j))

/-- `loadiv <BS bytes>` (R103). On another number of bytes, where R103 gives no expansion, DESIGN CHOICE (log entry 23):
the words of any multiple of 4 bytes, and none else. -/
def loadiv (iv : List Byte) : Option (List Stmt) := wrbytes 0x040 iv

/-- `setmode ECB`, with no IV argument (R103). -/
def setmodeEcbStmt : Stmt := .setmode (.raw 0) 0

/-- `arm <M>, <BS bytes>` (R103, M not ECB). On M = ECB, or another number of bytes, where R103 gives no expansion, DESIGN
CHOICE (log entry 23): `loadiv` then `setmode M, BS` all the same. -/
def arm (m : ModeArg) (bs : Nat) (iv : List Byte) : Option (List Stmt) :=
  (loadiv iv).map (fun l => l ++ [.setmode m bs])

/-- `encblk` and `decblk` (R103). -/
def encblk (bs : Nat) : Stmt := .enc bs

/-- `decblk` (R103). -/
def decblk (bs : Nat) : Stmt := .dec bs

/-- `status` (R103). -/
def statusStmt : Stmt := .rd .w32 0x004

/-- The accesses of a program, in order; none where the assembler refuses a statement. -/
def assembleAll : List Stmt → Option (List Access)
  | [] => some []
  | st :: rest =>
    match assemble st, assembleAll rest with
    | some a, some l => some (a :: l)
    | _, _ => none

/-! ## Running accesses -/

/-- A host makes its accesses in order and collects the answers (20_memory.md R72). -/
def hostRun : List Access → State → Option (List Answer × State)
  | [], s => some ([], s)
  | a :: rest, s =>
    match hostAccess a s with
    | .next t =>
      match t.answer, hostRun rest t with
      | some ans, some (l, u) => some (ans :: l, u)
      | _, _ => none
    | .fault _ => none
    | .refused _ => none

/-- Assemble and run; none where a statement is refused. -/
def runProgram (p : List Stmt) (s : State) : Option (List Answer × State) :=
  match assembleAll p with
  | some l => hostRun l s
  | none => none

/-! ## Mode names (R221) -/

/-- ASCII letter case, folded: a to z against A to Z (R221). -/
def foldCase (c : Char) : Char :=
  if 97 ≤ c.toNat ∧ c.toNat ≤ 122 then Char.ofNat (c.toNat - 32) else c

/-- The code of a mode name; 7 for any string outside the vocabulary (R221). -/
def modeCode (n : Name) : Nat :=
  let u := n.map foldCase
  if u = ['E', 'C', 'B'] then 0
  else if u = ['C', 'B', 'C'] then 1
  else if u = ['P', 'C', 'B', 'C'] then 2
  else if u = ['C', 'F', 'B'] then 3
  else if u = ['O', 'F', 'B'] then 4
  else if u = ['C', 'T', 'R'] then 5
  else if u = ['C', 'T', 'R', '-', 'L', 'E'] then 6
  else 7

/-- The IVLEN the driver sets: 0 with no IV argument, else its length, at most 255 (R221). -/
def driverIvlen (iv : Option (List Byte)) : Nat :=
  match iv with
  | none => 0
  | some b => if b.length ≤ 255 then b.length else 255

/-- The driver's `set_mode(mode_name, iv?)` (R221): the IV is written to IV_IN when its length is BS, then
`setmode code, IVLEN`, then RESULT is read. -/
def driverSetMode (bs : Nat) (n : Name) (iv : Option (List Byte)) : Option (List Stmt) :=
  let load : Option (List Stmt) :=
    match iv with
    | some b => if b.length = bs then loadiv b else some []
    | none => some []
  load.map (fun l => l ++ [.setmode (.raw (modeCode n)) (driverIvlen iv), statusStmt])

/-! ## Padding and chunking (R122) -/

/-- Zero-fill padding to a block boundary (R122). -/
def padded (bs : Nat) (p : List Byte) : List Byte := p ++ zeroBlock ((bs - p.length % bs) % bs)

/-- Chunks of min(n, remaining) bytes, in order; `fuel` bounds their number. -/
def chunks (n : Nat) : Nat → List Byte → List (List Byte)
  | 0, _ => []
  | fuel + 1, l => if l = [] then [] else l.take n :: chunks n fuel (l.drop n)

/-- The bytes of the data words a list of answers carries. -/
def answerBytes (l : List Answer) : List Byte := l.flatMap (fun a => lanes a.data)

/-- RESULT of a STATUS word (10_state.md R28). -/
def statusResult (w : Word) : Nat := bits w 0 4

/-- One chunk of a driver call: `wrbytes 0x100, c ; enc |c| ; require RESULT == OK ; rdbytes 0x100, |c|` (R122),
or the same with `dec`. None where RESULT is not OK. -/
def driverChunk (d : Dir) (c : List Byte) (s : State) : Option (List Byte × State) :=
  let crypt : Stmt := match d with | .encrypt => .enc c.length | .decrypt => .dec c.length
  match wrbytes 0x100 c with
  | none => none
  | some load =>
    match runProgram load s with
    | none => none
    | some (_, s1) =>
      match runProgram [crypt, statusStmt] s1 with
      | some ([_, st], s2) =>
        if statusResult st.data ≠ 0 then none
        else (runProgram (rdbytes 0x100 (c.length / 4)) s2).map (fun r => (answerBytes r.1, r.2))
      | _ => none

/-- The chunks of a driver call, in order, and the concatenated outputs (R122). -/
def driverChunks (d : Dir) : List (List Byte) → State → Option (List Byte × State)
  | [], s => some ([], s)
  | c :: rest, s =>
    match driverChunk d c s with
    | none => none
    | some (out, t) => (driverChunks d rest t).map (fun r => (out ++ r.1, r.2))

/-- `DriverEncrypt(P)` (R122). -/
def driverEncrypt (p : List Byte) (s : State) : Option (List Byte × State) :=
  let q := padded s.bs p
  driverChunks .encrypt (chunks s.build.nbuf q.length q) s

/-- `DriverDecrypt(C)` (R122): a length that is no multiple of BS is reported as E_LEN and no command is issued. -/
def driverDecrypt (c : List Byte) (s : State) : Except ResultCode (Option (List Byte × State)) :=
  if c.length % s.bs ≠ 0 then .error .eLen
  else .ok (driverChunks .decrypt (chunks s.build.nbuf c.length c) s)

/-! ## The describe record (R247) -/

/-- The describe record of 44_introspection.md R247. -/
structure Description where
  cipher : String
  blockBytes : Nat
  blockBits : Nat
  keyBytes : Nat
  keyBits : Nat
  canEncode : Nat
  canDecode : Nat
  mode : String
  deriving DecidableEq, Repr

/-- The name of a CIPHER_ID (44_introspection.md R243). The table gives the codes 7 to 255 no name and says that 6 to
255 are never reported: for 7 and above, DESIGN CHOICE (log entry 24), the empty string. -/
def cipherName (code : Nat) : String :=
  match code with
  | 0 => "AES-128"
  | 1 => "AES-192"
  | 2 => "AES-256"
  | 3 => "DES"
  | 4 => "3DES"
  | 5 => "Blowfish"
  | 6 => "RC4"
  | _ => ""

/-- The name of a mode code (10_state.md R25, 44_introspection.md R241). R25 gives code 7 no source name, and MODEREG
never returns it in a reachable state (R26): there, and above 7, DESIGN CHOICE (log entry 24), the empty string. -/
def modeName (code : Nat) : String :=
  match code with
  | 0 => "ECB"
  | 1 => "CBC"
  | 2 => "PCBC"
  | 3 => "CFB"
  | 4 => "OFB"
  | 5 => "CTR"
  | 6 => "CTR-LE"
  | _ => ""

/-- The record from the words of the five introspection reads (R240, R247). -/
def description (modeReg cap cipher blksz keysz : Word) : Description where
  cipher := cipherName (bits cipher 0 8)
  blockBytes := bits blksz 0 16
  blockBits := bits blksz 16 16
  keyBytes := bits keysz 0 16
  keyBits := bits keysz 16 16
  canEncode := bits cap 0 1
  canDecode := bits cap 1 1
  mode := modeName (bits modeReg 0 3)

/-- The five introspection reads (R240). -/
def describeReads : List Stmt := [.rd .w32 0x008, .rd .w32 0x00C, .rd .w32 0x010, .rd .w32 0x014, .rd .w32 0x018]

/-- The driver's `describe` (R247). -/
def describe (s : State) : Option Description :=
  match runProgram describeReads s with
  | some ([m, c, i, b, k], _) => some (description m.data c.data i.data b.data k.data)
  | _ => none

/-! ## Release, and the platform's addresses -/

/-- The release procedure that destroys chaining state and data (R292): zeros over BUF and IV_IN, then
`setmode ECB`. -/
def scrub (nbuf bs : Nat) : Option (List Stmt) :=
  match wrbytes 0x100 (zeroBlock nbuf), loadiv (zeroBlock bs) with
  | some l, some m => some (l ++ m ++ [setmodeEcbStmt])
  | _, _ => none

/-- The offset a platform address names, relative to MOE_BASE; none outside MOE's port space (20_memory.md R60). -/
def platformOffset (base addr : Nat) : Option Addr :=
  if base ≤ addr ∧ addr < base + 65536 then some (BitVec.ofNat 16 (addr - base)) else none

/-- The access a platform address reaches, at the platform's own MOE_BASE (20_memory.md R60, R77). -/
def platformRead (addr : Nat) (width : Width) : Option Access :=
  (platformOffset Config.moeBase addr).map (fun a => .read a width)

/-- The write a platform address reaches (20_memory.md R60, R77). -/
def platformWrite (addr : Nat) (width : Width) (v : Word) : Option Access :=
  (platformOffset Config.moeBase addr).map (fun a => .write a width v)

end Sys2Proof.Machine
end

