-- ==== Sys2Proof/Machine/Sequencer.lean ====
section
/-! DEFINITION. The mode-state machine that runs one command (42_datapath.md R193), phase by phase. `command` in Port.lean is
the whole path from IDLE back to IDLE as one step (20_memory.md R71); this file writes out the phases between, which no host observes. -/

namespace Sys2Proof.Machine

/-- The states of the sequencer (R193). RUN carries the direction, the router's row, the number of blocks n and the
block index k. -/
inductive Phase where
  | idle
  | decode (w : Word)
  | check (i : Instr)
  | run (d : Dir) (p : Route) (n k : Nat)
  | faultEntry
  | done (r : ResultCode)
  deriving DecidableEq, Repr

/-- CHECK of a SET_MODE: "CHECK, then DONE(OK or error)". -/
def checkSetMode (m : BitVec 3) (ivlen : Nat) (s : State) : Phase × State :=
  match setModeError m ivlen s with
  | some e => (.done e, s)
  | none => (.done .ok, if m = 0 then armEcb s else armIv m s)

/-- CHECK of an ENCRYPT or DECRYPT: an error, the fault entry, or RUN(0) when there is a block. -/
def checkCrypt (d : Dir) (len : Nat) (s : State) : Phase × State :=
  match cryptError d len s with
  | some e => (.done e, s)
  | none =>
    match route s.build.ctrle s.mode with
    | none => (.faultEntry, s)
    | some p => if 0 < len / s.bs then (.run d p (len / s.bs) 0, s) else (.done .ok, s)

/-- CHECK, by command. -/
def checkInstr (i : Instr) (s : State) : Phase × State :=
  match i with
  | .setmodeEcb ivlen => checkSetMode 0 ivlen s
  | .setmodeCbc ivlen => checkSetMode 1 ivlen s
  | .setmodePcbc ivlen => checkSetMode 2 ivlen s
  | .setmodeCfb ivlen => checkSetMode 3 ivlen s
  | .setmodeOfb ivlen => checkSetMode 4 ivlen s
  | .setmodeCtr ivlen => checkSetMode 5 ivlen s
  | .setmodeCtrle ivlen => checkSetMode 6 ivlen s
  | .setmodeBad ivlen => checkSetMode 7 ivlen s
  | .enc len => checkCrypt .encrypt len s
  | .dec len => checkCrypt .decrypt len s

/-- One transition of the table of R193. The CMD write itself takes IDLE to DECODE. -/
def sequencerStep (ps : Phase × State) : Phase × State :=
  match ps with
  | (.idle, s) => (.idle, s)
  | (.decode w, s) =>
    if s.fault then (.done .eFault, s)
    else
      match decode w with
      | .error _ => (.done .eCmd, s)
      | .ok i => (.check i, s)
  | (.check i, s) => checkInstr i s
  | (.run d p n k, s) =>
    let s' := blockStep d p k s
    if k + 1 < n then (.run d p n (k + 1), s') else (.done .ok, s')
  | (.faultEntry, s) => (.done .eFault, s.setFault)
  | (.done r, s) => (.idle, s.setResult r)

/-- n transitions of the sequencer. -/
def sequencerRun : Nat → Phase × State → Phase × State
  | 0, ps => ps
  | n + 1, ps => sequencerRun n (sequencerStep ps)

end Sys2Proof.Machine
end

