-- ==== Sys2Proof/Safety.lean ====
section
/-! DEFINITION. What holds in every state MOE reaches (10_state.md R26, R47; 60_exceptions.md R260, R272), and what
a port may hold so that a run never stops. -/

namespace Sys2Proof.Machine

/-- The invariant of MOE: the parameters are as construction admits them, the block registers have BS bytes, MODE is
legal, RESULT is a code the spec lists, the fault state is not entered, and BUF's contents are canonical and inside BUF. -/
structure EngineInv (s : State) : Prop where
  /-- NBUF is a multiple of 16, in 16 .. 65280 (00_scope.md R7) -/
  build : s.build.wf
  /-- BS ∈ {8, 16} (00_scope.md R6) -/
  blockBytes : s.bs = 8 ∨ s.bs = 16
  /-- the adapter's block size is BS (42_datapath.md R189) -/
  adapter : blockSize s.adapter = s.bs
  /-- CIPHER_ID is one that is reported, and its block size is BS (44_introspection.md R243) -/
  cipher : cipherBlockSize s.cipherId.toNat = some s.bs
  /-- KEY_BYTES in 1..8191 (00_scope.md R8) -/
  key : 1 ≤ s.keyBytes ∧ s.keyBytes ≤ 8191
  /-- IV has BS bytes (10_state.md R47) -/
  ivBytes : s.iv.length = s.bs
  /-- CTR has BS bytes (10_state.md R47) -/
  ctrBytes : s.ctr.length = s.bs
  /-- IV_IN has BS bytes (10_state.md R31) -/
  ivInBytes : s.ivIn.length = s.bs
  /-- MODE holds a legal code (10_state.md R26) -/
  mode : legalMode s.build.ctrle s.mode = true
  /-- RESULT codes 9 .. 15 are never written (60_exceptions.md R260) -/
  result : s.result.toNat ≤ 8
  /-- the fault state is unreachable (60_exceptions.md R272) -/
  noFault : s.fault = false
  /-- BUF's contents are in canonical form -/
  bufForm : s.buf.wf
  /-- only bytes of BUF are held (10_state.md R32) -/
  bufBytes : ∀ c ∈ s.buf, c.1 < s.build.nbuf

/-- An interaction that never stops the machine: an access, a release, or a construction R290 does not refuse. -/
def Event.served : Event → Bool
  | .access _ => true
  | .construct i => i.legal
  | .release => true
  | .accessDuringConstruction _ => false

/-- A port that holds only such interactions. -/
def State.servable (s : State) : Prop := ∀ e ∈ s.port, e.served = true

end Sys2Proof.Machine
end

