-- ==== Sys2Proof/Certificates/Slice0/Obligations.lean ====
section
/-! DEFINITION. The statements for the provers, from the numbered rules of spec/. Each docstring names the rules it
formalises. `exec` is the meaning of a command, `hostAccess` one access at the port, `step` one turn of the machine. -/

open Sys2Proof Sys2Proof.Machine

namespace Sys2Proof.Statements

/-- The eight SETMODE commands with one IVLEN. -/
def setmodeRows (ivlen : Nat) : List Instr :=
  [.setmodeEcb ivlen, .setmodeCbc ivlen, .setmodePcbc ivlen, .setmodeCfb ivlen, .setmodeOfb ivlen, .setmodeCtr ivlen,
    .setmodeCtrle ivlen, .setmodeBad ivlen]

/-- The SETMODE commands that take an IV in every build, with the code each records (30_encoding.md R95). -/
def ivRows (ivlen : Nat) : List (Instr × BitVec 3) :=
  [(.setmodeCbc ivlen, 1), (.setmodePcbc ivlen, 2), (.setmodeCfb ivlen, 3), (.setmodeOfb ivlen, 4), (.setmodeCtr ivlen, 5)]

/-- The command completes with OK over one block: it writes `out` to BUF[0 .. BS-1], and IV, CTR as given. Every
other byte of BUF and every other element of the state is as before. -/
def OneBlock (i : Instr) (s : State) (out iv ctr : Block) : Prop :=
  ∃ t, exec i s = .next t ∧ t.memRead 0 s.bs = out ∧ (∀ off, s.bs ≤ off → t.bufByte off = s.bufByte off) ∧
    t = { s with iv := iv, ctr := ctr, result := 0, buf := t.buf }

/-- Blocks processed as a stream: each block rule reads the chaining state the one before left. -/
def stream (rule : Chain → Block → Block × Chain) : List Block → Chain → List Block × Chain
  | [], c => ([], c)
  | x :: rest, c =>
    let r := rule c x
    let q := stream rule rest r.2
    (r.1 :: q.1, q.2)

/-- The first n blocks of BUF. -/
def blocksOf (s : State) (n : Nat) : List Block := (List.range n).map (fun k => s.memRead (k * s.bs) s.bs)

/-- The command completes with OK over n blocks, as if the block rule were applied to them in order: BUF's first n
blocks become the outputs, IV and CTR what the last rule left, and all else is as before. -/
def Streams (i : Instr) (s : State) (n : Nat) (rule : Chain → Block → Block × Chain) : Prop :=
  ∃ t, exec i s = .next t ∧ blocksOf t n = (stream rule (blocksOf s n) s.chain).1 ∧
    (∀ off, n * s.bs ≤ off → t.bufByte off = s.bufByte off) ∧
    t = { s with
      iv := (stream rule (blocksOf s n) s.chain).2.iv, ctr := (stream rule (blocksOf s n) s.chain).2.ctr,
      result := 0, buf := t.buf }

/-- Different answers of one adapter call give different output blocks, among blocks of one length. -/
def AnswerMatters (finish : Chain → Block → Block → Block × Chain) : Prop :=
  ∀ (c : Chain) (x y z : Block), c.iv.length = x.length → y.length = x.length → z.length = x.length →
    (finish c x y).1 = (finish c x z).1 → y = z

/-- The mode names of the host-program language and their codes (30_encoding.md R96, R102). -/
def assemblerNames : List (Name × Nat) :=
  [(['E', 'C', 'B'], 0), (['C', 'B', 'C'], 1), (['P', 'C', 'B', 'C'], 2), (['C', 'F', 'B'], 3), (['O', 'F', 'B'], 4),
    (['C', 'T', 'R'], 5), (['C', 'T', 'R', 'L', 'E'], 6)]

/-- What an ENCRYPT or DECRYPT of LEN bytes needs to run its blocks: no fault state, LEN a multiple of BS and at
most NBUF (40_encrypt.md R120, 41_decrypt.md R150). -/
structure Runs (len : Nat) (s : State) : Prop where
  noFault : s.fault = false
  whole : len % s.bs = 0
  fits : len ≤ s.build.nbuf

end Sys2Proof.Statements

open Sys2Proof.Statements

/-! ## Construction and the invariant -/

/-- Construction is refused exactly on the illegal combinations (R290), and else leaves every element at its reset value
(R46). That each byte of BUF is the uninterpreted draw of this construction is the model's form of R46's free draw (log entry 6). -/
def Obligations.ConstructionGivesResetValues : Prop :=
  ∀ (b : Config.Build) (n : Nat) (p : List Event) (i : Inputs),
    ((construct b n p i).isSome = true ↔
      (blockSize i.adapter = 8 ∨ blockSize i.adapter = 16) ∧
      ((i.cipherId ≤ 2 ∧ blockSize i.adapter = 16) ∨ (3 ≤ i.cipherId ∧ i.cipherId ≤ 5 ∧ blockSize i.adapter = 8)) ∧
      1 ≤ i.keyBytes ∧ i.keyBytes ≤ 8191) ∧
    ∀ s, construct b n p i = some s →
      s.bs = blockSize i.adapter ∧ s.schedule = keySetup i.adapter i.key (8 * i.keyBytes) ∧ s.adapter = i.adapter ∧
      s.canEnc = i.canEnc ∧ s.canDec = i.canDec ∧ s.cipherId.toNat = i.cipherId ∧ s.keyBytes = i.keyBytes ∧
      s.mode = 0 ∧ s.iv = List.replicate s.bs 0 ∧ s.ctr = List.replicate s.bs 0 ∧ s.result = 0 ∧ s.fault = false ∧
      s.ivIn = List.replicate s.bs 0 ∧ s.build = b ∧ ∀ off, s.bufByte off = Config.bufDraw n off

/-- The invariant holds at the model's reset state. The construction inputs of that state are the model's choice
(log entry 5). -/
def Obligations.InvariantHoldsAtReset : Prop := EngineInv State.reset

/-- Every step keeps the invariant: MODE stays legal (R26), IV and CTR keep BS bytes (R47), RESULT stays a listed
code (R260), the fault state is not entered (R272), BUF's contents keep their canonical form. -/
def Obligations.StepKeepsInvariant : Prop := ∀ s t : State, EngineInv s → step s = .next t → EngineInv t

/-- R26, R47. In every state a run reaches from any construction, MODE is legal and IV and CTR have BS bytes. -/
def Obligations.ReachableStatesAreLegal : Prop :=
  ∀ (b : Config.Build) (n : Nat) (p : List Event) (i : Inputs) (s t : State) (k : Nat),
    b.wf → construct b n p i = some s → core.run k s = .next t →
      (t.mode.toNat ≤ 5 ∨ (t.mode = 6 ∧ t.build.ctrle ≠ .reject)) ∧ t.iv.length = t.bs ∧ t.ctr.length = t.bs

/-- No run of accesses, releases and legal constructions ever stops, and the fault state is never entered (R272,
R305). Two of its clauses are the model's: the port as a list (log entry 1), and that accesses are served after a release as before it
(log entry 9). -/
def Obligations.ServedRunsNeverStop : Prop :=
  ∀ (s : State) (k : Nat), EngineInv s → s.servable → ∃ t, core.run k s = .next t ∧ t.fault = false

/-! ## Encoding -/

/-- Decoding the encoding of a well-formed command gives it back (R91 to R95). -/
def Obligations.DecodeOfEncode : Prop := ∀ i : Instr, i.wellFormed = true → decode (encode i) = .ok i

/-- A word that decodes is the encoding of what it decodes to, which is well-formed (R91 to R95). -/
def Obligations.EncodeOfDecode : Prop := ∀ (w : Word) (i : Instr), decode w = .ok i → i.wellFormed = true ∧ encode i = w

/-- R95. The rows of the command map a word selects are the decoded command's row alone, and none where the decoder
rejects. -/
def Obligations.DecoderFollowsCommandMap : Prop :=
  ∀ w : Word, (opRows.filter (fun r => r.selects w)).map OpRow.mnemonic =
    match decode w with
    | .ok i => [i.mnemonic]
    | .error _ => []

/-- A few words written out from the pattern strings of R92 and R93, one of each kind. -/
def Obligations.WrittenWordsDecode : Prop :=
  decode 0b00000000000000000000001100000001 = .ok (.setmodeEcb 3) ∧
  decode 0b00000000000000000000100000010001 = .ok (.setmodeCbc 8) ∧
  decode 0b00000000000000000001000001100001 = .ok (.setmodeCtrle 16) ∧
  decode 0b00000000000000000000100001110001 = .ok (.setmodeBad 8) ∧
  decode 0b00000001000000000000000000000010 = .ok (.enc 256) ∧
  decode 0b00000000000100000000000000000011 = .ok (.dec 16) ∧
  decode 0b00000000000010000000000000010010 = .error .reservedBits

/-- R97. An unassigned OP sets E_CMD and changes no other state. -/
def Obligations.UnassignedOpSetsECmd : Prop :=
  ∀ (w : Word) (s : State), s.fault = false → (bits w 0 4 = 0 ∨ 4 ≤ bits w 0 4) →
    command w s = .next { s with result := 1 }

/-- R98. An assigned OP with a non-zero reserved bit sets E_CMD and changes no other state. -/
def Obligations.ReservedBitsSetECmd : Prop :=
  ∀ (w : Word) (s : State), s.fault = false →
    ((bits w 0 4 = 1 ∧ (bits w 7 1 ≠ 0 ∨ bits w 16 16 ≠ 0)) ∨ ((bits w 0 4 = 2 ∨ bits w 0 4 = 3) ∧ bits w 4 12 ≠ 0)) →
    command w s = .next { s with result := 1 }

/-- The statements of the host-program language perform their accesses (R102): `enc`, `dec` and `setmode`, with a mode
name or `#n`, the CMD write whose word decodes to their command, `.cmd` the CMD write of its word, `wr` and `rd` their access. The assembler
refuses an IVLEN or a LEN outside its field, an unknown mode name, and a misaligned address. That names match letter for letter, that a raw
code above 7 and an address above 0xFFFF are refused too, is the model's choice (log entry 16). -/
def Obligations.AssemblerEncodesItsStatement : Prop :=
  (∀ len, (len < 65536 → ∃ w, assemble (.enc len) = some (.write 0x000 .w32 w) ∧ decode w = .ok (.enc len)) ∧
    (65536 ≤ len → assemble (.enc len) = none)) ∧
  (∀ len, (len < 65536 → ∃ w, assemble (.dec len) = some (.write 0x000 .w32 w) ∧ decode w = .ok (.dec len)) ∧
    (65536 ≤ len → assemble (.dec len) = none)) ∧
  (∀ code ivlen, (code < 8 → ivlen < 256 →
      ∃ w, assemble (.setmode (.raw code) ivlen) = some (.write 0x000 .w32 w) ∧ decode w = .ok (setmodeRow code ivlen)) ∧
    (8 ≤ code ∨ 256 ≤ ivlen → assemble (.setmode (.raw code) ivlen) = none)) ∧
  (∀ r ∈ assemblerNames, ∀ ivlen, (ivlen < 256 →
      ∃ w, assemble (.setmode (.name r.1) ivlen) = some (.write 0x000 .w32 w) ∧ decode w = .ok (setmodeRow r.2 ivlen)) ∧
    (256 ≤ ivlen → assemble (.setmode (.name r.1) ivlen) = none)) ∧
  (∀ n, (∀ r ∈ assemblerNames, n ≠ r.1) → ∀ ivlen, assemble (.setmode (.name n) ivlen) = none) ∧
  (∀ w, assemble (.cmd w) = some (.write 0x000 .w32 w)) ∧
  (∀ (width : Width) (addr : Addr) (v : Word), addr.toNat % width.bytes = 0 →
    assemble (.wr width addr.toNat v) = some (.write addr width v) ∧ assemble (.rd width addr.toNat) = some (.read addr width)) ∧
  (∀ (width : Width) (addr : Nat) (v : Word), addr % width.bytes ≠ 0 ∨ 65536 ≤ addr →
    assemble (.wr width addr v) = none ∧ assemble (.rd width addr) = none)

/-! ## The step -/

/-- When the port's next access is the CMD write of a word that decodes to i, the step is exec of i on the state with
that access taken from the port, and the port answers the write (R37, R101). The port and its answer are the model's form of the host (log entries 1 and 2),
and so is the data 0 of a write's answer (log entry 20). -/
def Obligations.StepRunsDecodedCommand : Prop :=
  ∀ (s : State) (w : Word) (i : Instr) (rest : List Event),
    s.port = .access (.write 0x000 .w32 w) :: rest → decode w = .ok i →
    step s = answered { error := false, data := 0 } (exec i (s.setPort rest))

/-- The port's turns that are no access: nothing to serve (R291), a construction (R290), a release (R292), an access
during construction (R306). The fresh draw a construction takes is the model's choice (log entry 6). -/
def Obligations.PortTurnsOutsideAccesses : Prop :=
  ∀ (s : State) (rest : List Event),
    (s.port = [] → step s = .next s) ∧
    (∀ i, s.port = .construct i :: rest →
      (i.legal = true → step s = .next (constructed s.build (s.draw + 1) rest i)) ∧
      (i.legal = false → step s = .refused .constructionRefused)) ∧
    (s.port = .release :: rest → step s = .next { s with port := rest }) ∧
    (∀ a, s.port = .accessDuringConstruction a :: rest → step s = .fault .accessDuringConstruction)

/-- The port serves accesses one at a time in its order, each on the state the one before left: running the machine
over queued accesses is a host making them one after another (R72), whatever else waits behind them. The port as a list, whose order stands for any
interleaving of the agents, is the model's form of the host (log entry 1). -/
def Obligations.PortServesAccessesInOrder : Prop :=
  ∀ (l : List Access) (s : State) (rest : List Event), s.port = l.map .access ++ rest →
    ∃ (answers : List Answer) (t : State), hostRun l (s.setPort rest) = some (answers, t) ∧
      answers.length = l.length ∧ core.run l.length s = .next t

/-! ## SET_MODE -/

/-- R213. SETMODE.ECB always succeeds, whatever IVLEN is. -/
def Obligations.SetmodeEcbClears : Prop :=
  ∀ (ivlen : Nat) (s : State), s.fault = false →
    exec (.setmodeEcb ivlen) s =
      .next { s with iv := List.replicate s.bs 0, ctr := List.replicate s.bs 0, mode := 0, result := 0 }

/-- R215. With IVLEN = BS the rows CBC, PCBC, CFB, OFB and CTR arm IV from IV_IN, zero CTR and record the mode; and
CTRLE does where the policy is not REJECT. -/
def Obligations.SetmodeArmsIv : Prop :=
  ∀ s : State, s.fault = false →
    (∀ r ∈ ivRows s.bs, exec r.1 s =
      .next { s with iv := s.ivIn.take s.bs, ctr := List.replicate s.bs 0, mode := r.2, result := 0 }) ∧
    (s.build.ctrle ≠ .reject → exec (.setmodeCtrle s.bs) s =
      .next { s with iv := s.ivIn.take s.bs, ctr := List.replicate s.bs 0, mode := 6, result := 0 })

/-- R214. An IVLEN that is not BS makes them fail with E_IV and change nothing else. -/
def Obligations.SetmodeRefusesIvLength : Prop :=
  ∀ (ivlen : Nat) (s : State), s.fault = false → ivlen ≠ s.bs →
    (∀ r ∈ ivRows ivlen, exec r.1 s = .next { s with result := 4 }) ∧
    (s.build.ctrle ≠ .reject → exec (.setmodeCtrle ivlen) s = .next { s with result := 4 })

/-- R212. SETMODE.CTRLE, by policy. -/
def Obligations.SetmodeCtrleFollowsPolicy : Prop :=
  ∀ (ivlen : Nat) (s : State), s.fault = false →
    (s.build.ctrle = .reject → exec (.setmodeCtrle ivlen) s = .next { s with result := 3 }) ∧
    (s.build.ctrle ≠ .reject → ivlen ≠ s.bs → exec (.setmodeCtrle ivlen) s = .next { s with result := 4 }) ∧
    (s.build.ctrle ≠ .reject → ivlen = s.bs → exec (.setmodeCtrle ivlen) s =
      .next { s with iv := s.ivIn.take s.bs, ctr := List.replicate s.bs 0, mode := 6, result := 0 })

/-- R211. SETMODE.BAD fails with E_MODE, whatever IVLEN is, and changes nothing else. -/
def Obligations.SetmodeBadFails : Prop :=
  ∀ (ivlen : Nat) (s : State), s.fault = false → exec (.setmodeBad ivlen) s = .next { s with result := 2 }

/-- R216. A failing SET_MODE writes only RESULT. -/
def Obligations.FailingSetmodeWritesOnlyResult : Prop :=
  ∀ (ivlen : Nat) (i : Instr) (s t : State), i ∈ setmodeRows ivlen → exec i s = .next t → t.result ≠ 0 →
    t = { s with result := t.result }

/-- R220. SET_MODE checks no capability flag, calls no adapter, and neither reads nor writes BUF: with other flags,
another adapter, schedule and buffer it does the same and leaves them alone. -/
def Obligations.SetmodeIgnoresCipherAndBuffer : Prop :=
  ∀ (ivlen : Nat) (i : Instr) (s t : State) (canEnc canDec : Bool) (adapter : Config.Adapter) (schedule : List Byte)
    (buf : Memory), i ∈ setmodeRows ivlen → exec i s = .next t →
    (t.canEnc = s.canEnc ∧ t.canDec = s.canDec ∧ t.adapter = s.adapter ∧ t.schedule = s.schedule ∧ t.buf = s.buf) ∧
    exec i { s with canEnc := canEnc, canDec := canDec, adapter := adapter, schedule := schedule, buf := buf } =
      .next { t with canEnc := canEnc, canDec := canDec, adapter := adapter, schedule := schedule, buf := buf }

/-- Only a successful SET_MODE and a construction write MODE, and SET_MODE writes its own code (R25, R222). -/
def Obligations.ModeHasTwoWriters : Prop :=
  ∀ s t : State, step s = .next t → t.mode ≠ s.mode →
    (∃ (w : Word) (rest : List Event), s.port = .access (.write 0x000 .w32 w) :: rest ∧ s.fault = false ∧
      bits w 0 4 = 1 ∧ bits w 4 3 = t.mode.toNat ∧ t.result = 0) ∨
    (∃ (i : Inputs) (rest : List Event), s.port = .construct i :: rest ∧ t.mode = 0)

/-- R48. In any step CTR is kept, zeroed (by SET_MODE or a construction), or counted on by ENCRYPT or DECRYPT with the
increment of a counter mode, once for each of the LEN / BS blocks: in CTR by inc_be, in CTR-LE under LITTLE_ENDIAN by inc_le. -/
def Obligations.CtrHasThreeWriters : Prop :=
  ∀ s t : State, step s = .next t →
    t.ctr = s.ctr ∨
    (t.ctr = List.replicate t.bs 0 ∧
      ((∃ w rest, s.port = .access (.write 0x000 .w32 w) :: rest ∧ bits w 0 4 = 1) ∨
       (∃ i rest, s.port = .construct i :: rest))) ∨
    (∃ w rest, s.port = .access (.write 0x000 .w32 w) :: rest ∧ (bits w 0 4 = 2 ∨ bits w 0 4 = 3) ∧
      ((s.mode = 5 ∧ t.ctr = incBe^[bits w 16 16 / s.bs] s.ctr) ∨
       (s.mode = 6 ∧ s.build.ctrle = .littleEndian ∧ t.ctr = incLe^[bits w 16 16 / s.bs] s.ctr)))

/-! ## Errors and their priority -/

/-- R151. DECRYPT fails with E_CAP exactly when its capability check is false: it needs CAN_DEC, and CAN_ENC too in
CFB, OFB, CTR and CTR-LE under LITTLE_ENDIAN. It then changes nothing else. -/
def Obligations.DecryptCapabilityCheck : Prop :=
  ∀ (len : Nat) (s : State), s.fault = false →
    let capable := s.canDec = true ∧
      (s.mode = 3 ∨ s.mode = 4 ∨ s.mode = 5 ∨ (s.mode = 6 ∧ s.build.ctrle = .littleEndian) → s.canEnc = true)
    (¬capable → exec (.dec len) s = .next { s with result := 5 }) ∧
    (capable → ∃ t, exec (.dec len) s = .next t ∧ t.result ≠ 5)

/-- R264, R121, R272. ENCRYPT and DECRYPT report the first of E_FAULT, E_CMD, E_CAP, E_LEN, E_RANGE and the fault
entry that applies, and change nothing but RESULT (and FAULT, at the fault entry). -/
def Obligations.CryptErrorPriority : Prop :=
  ∀ (w : Word) (s : State),
    let len := bits w 16 16
    let capable := (bits w 0 4 = 2 ∧ s.canEnc = true) ∨ (bits w 0 4 = 3 ∧ s.decCapable = true)
    bits w 0 4 = 2 ∨ bits w 0 4 = 3 →
    (s.fault = true → command w s = .next { s with result := 8 }) ∧
    (s.fault = false →
      (bits w 4 12 ≠ 0 → command w s = .next { s with result := 1 }) ∧
      (bits w 4 12 = 0 →
        (¬capable → command w s = .next { s with result := 5 }) ∧
        (capable →
          (len % s.bs ≠ 0 → command w s = .next { s with result := 6 }) ∧
          (len % s.bs = 0 →
            (s.build.nbuf < len → command w s = .next { s with result := 7 }) ∧
            (len ≤ s.build.nbuf →
              (legalMode s.build.ctrle s.mode = false → command w s = .next { s with fault := true, result := 8 }) ∧
              (legalMode s.build.ctrle s.mode = true → ∃ t, command w s = .next t ∧ t.result = 0))))))

/-- R263. SET_MODE reports the first of E_FAULT, E_CMD, E_MODE, E_UNSUPPORTED and E_IV that applies, and succeeds where
none does. -/
def Obligations.SetmodeErrorPriority : Prop :=
  ∀ (w : Word) (s : State), bits w 0 4 = 1 →
    (s.fault = true → command w s = .next { s with result := 8 }) ∧
    (s.fault = false →
      (bits w 7 1 ≠ 0 ∨ bits w 16 16 ≠ 0 → command w s = .next { s with result := 1 }) ∧
      (bits w 7 1 = 0 → bits w 16 16 = 0 →
        (bits w 4 3 = 7 → command w s = .next { s with result := 2 }) ∧
        (bits w 4 3 = 6 ∧ s.build.ctrle = .reject → command w s = .next { s with result := 3 }) ∧
        (bits w 4 3 ≠ 7 → ¬(bits w 4 3 = 6 ∧ s.build.ctrle = .reject) →
          (bits w 4 3 ≠ 0 ∧ bits w 8 8 ≠ s.bs → command w s = .next { s with result := 4 }) ∧
          (bits w 4 3 = 0 ∨ bits w 8 8 = s.bs → ∃ t, command w s = .next t ∧ t.result = 0))))

/-- R262, R261. Every command completes with one outcome, a listed code; a command that ends with any code other than OK changes
nothing but RESULT, plus FAULT for E_FAULT. -/
def Obligations.FailingCommandChangesOnlyResult : Prop :=
  ∀ (w : Word) (s : State), ∃ t, command w s = .next t ∧ t.result.toNat ≤ 8 ∧
    (t.result ≠ 0 → t = { s with result := t.result, fault := t.fault }) ∧ (t.fault ≠ s.fault → t.result = 8)

/-- R273. In the fault state every CMD write sets E_FAULT and nothing else, and no access leaves the fault state. The data 0
of a write's answer is the model's (log entry 20). -/
def Obligations.FaultStateRefusesCommands : Prop :=
  ∀ s : State, s.fault = true →
    (∀ w, hostAccess (.write 0x000 .w32 w) s = .next { s with result := 8, answer := some { error := false, data := 0 } }) ∧
    (∀ a t, hostAccess a s = .next t → t.fault = true ∧ t.mode = s.mode ∧ t.iv = s.iv ∧ t.ctr = s.ctr)

/-! ## ENCRYPT and DECRYPT -/

/-- R130, R160. ENC and DEC process exactly n = LEN / BS blocks, as if EncBlock or DecBlock were applied to them in
order; BUF from LEN on, and all else, is unchanged. For LEN = 0 nothing but RESULT changes. -/
def Obligations.CryptProcessesBlocksInOrder : Prop :=
  ∀ (len : Nat) (s : State) (p : Route), EngineInv s → Runs len s → route s.build.ctrle s.mode = some p →
    (s.canEnc = true → Streams (.enc len) s (len / s.bs) (encBlock p s.enc)) ∧
    (s.decCapable = true → Streams (.dec len) s (len / s.bs) (decBlock p s.enc s.dec))

/-- R131, R160. A command of a + b bytes leaves the same outputs, IV and CTR as one of a bytes followed by one of the next
b bytes, moved to BUF offset 0 between the two. -/
def Obligations.CommandsSplit : Prop :=
  ∀ (a b : Nat) (s : State), EngineInv s → Runs (a + b) s → a % s.bs = 0 →
    ∀ i : Nat → Instr, (i = Instr.enc ∧ s.canEnc = true) ∨ (i = Instr.dec ∧ s.decCapable = true) →
    ∃ t u v, exec (i (a + b)) s = .next t ∧ exec (i a) s = .next u ∧
      exec (i b) (u.memWrite 0 (s.memRead a b)) = .next v ∧
      u.memRead 0 a = t.memRead 0 a ∧ v.memRead 0 b = t.memRead a b ∧ v.iv = t.iv ∧ v.ctr = t.ctr

/-- R123, R152. ECB over one block. -/
def Obligations.EcbBlockRules : Prop :=
  ∀ s : State, EngineInv s → s.mode = 0 →
    let x := s.memRead 0 s.bs
    (s.canEnc = true → OneBlock (.enc s.bs) s (s.enc x) s.iv s.ctr) ∧
    (s.canDec = true → OneBlock (.dec s.bs) s (s.dec x) s.iv s.ctr)

/-- R124, R153. CBC over one block. -/
def Obligations.CbcBlockRules : Prop :=
  ∀ s : State, EngineInv s → s.mode = 1 →
    let x := s.memRead 0 s.bs
    let y := s.enc (xorBlock x s.iv)
    (s.canEnc = true → OneBlock (.enc s.bs) s y y s.ctr) ∧
    (s.canDec = true → OneBlock (.dec s.bs) s (xorBlock (s.dec x) s.iv) x s.ctr)

/-- R125, R154. PCBC over one block: IV becomes input XOR output. -/
def Obligations.PcbcBlockRules : Prop :=
  ∀ s : State, EngineInv s → s.mode = 2 →
    let x := s.memRead 0 s.bs
    let y := s.enc (xorBlock x s.iv)
    let z := xorBlock (s.dec x) s.iv
    (s.canEnc = true → OneBlock (.enc s.bs) s y (xorBlock x y) s.ctr) ∧
    (s.canDec = true → OneBlock (.dec s.bs) s z (xorBlock x z) s.ctr)

/-- R126, R155. CFB over one block: the keystream is Enc(IV) both ways, and IV becomes the ciphertext block. -/
def Obligations.CfbBlockRules : Prop :=
  ∀ s : State, EngineInv s → s.mode = 3 →
    let x := s.memRead 0 s.bs
    let y := xorBlock x (s.enc s.iv)
    (s.canEnc = true → OneBlock (.enc s.bs) s y y s.ctr) ∧
    (s.canDec = true → s.canEnc = true → OneBlock (.dec s.bs) s y x s.ctr)

/-- R127, R156. OFB over one block: IV becomes Enc(IV), which is the keystream, both ways. -/
def Obligations.OfbBlockRules : Prop :=
  ∀ s : State, EngineInv s → s.mode = 4 →
    let y := xorBlock (s.memRead 0 s.bs) (s.enc s.iv)
    (s.canEnc = true → OneBlock (.enc s.bs) s y (s.enc s.iv) s.ctr) ∧
    (s.canDec = true → s.canEnc = true → OneBlock (.dec s.bs) s y (s.enc s.iv) s.ctr)

/-- R128, R157. CTR over one block: the keystream is Enc(CTR XOR IV), CTR is incremented big-endian, IV is unchanged. -/
def Obligations.CtrBlockRules : Prop :=
  ∀ s : State, EngineInv s → s.mode = 5 →
    let y := xorBlock (s.memRead 0 s.bs) (s.enc (xorBlock s.ctr s.iv))
    (s.canEnc = true → OneBlock (.enc s.bs) s y s.iv (incBe s.ctr)) ∧
    (s.canDec = true → s.canEnc = true → OneBlock (.dec s.bs) s y s.iv (incBe s.ctr))

/-- R129, R158. CTR-LE over one block, by policy. -/
def Obligations.CtrleBlockRules : Prop :=
  ∀ s : State, EngineInv s → s.mode = 6 →
    let x := s.memRead 0 s.bs
    let y := xorBlock x (s.enc (xorBlock s.ctr s.iv))
    (s.build.ctrle = .littleEndian →
      (s.canEnc = true → OneBlock (.enc s.bs) s y s.iv (incLe s.ctr)) ∧
      (s.canDec = true → s.canEnc = true → OneBlock (.dec s.bs) s y s.iv (incLe s.ctr))) ∧
    (s.build.ctrle = .ecbFallback →
      (s.canEnc = true → OneBlock (.enc s.bs) s (s.enc x) s.iv s.ctr) ∧
      (s.canDec = true → OneBlock (.dec s.bs) s (s.dec x) s.iv s.ctr))

/-- In ECB every block is transformed on its own, wherever it stands among the others (R123, R152). -/
def Obligations.EcbBlocksAreIndependent : Prop :=
  ∀ (len : Nat) (s : State), EngineInv s → Runs len s → s.mode = 0 →
    (s.canEnc = true → ∃ t, exec (.enc len) s = .next t ∧
      ∀ k < len / s.bs, t.memRead (k * s.bs) s.bs = s.enc (s.memRead (k * s.bs) s.bs)) ∧
    (s.canDec = true → ∃ t, exec (.dec len) s = .next t ∧
      ∀ k < len / s.bs, t.memRead (k * s.bs) s.bs = s.dec (s.memRead (k * s.bs) s.bs))

/-- In CTR, block k of a command is XORed with Enc of the k-times incremented counter XOR IV, and the command leaves the
counter n further on (R128, R157, R185). -/
def Obligations.CtrKeystream : Prop :=
  ∀ (len : Nat) (s : State) (i : Instr), EngineInv s → Runs len s → s.mode = 5 → s.canEnc = true →
    (i = .enc len ∨ (i = .dec len ∧ s.canDec = true)) →
    ∃ t, exec i s = .next t ∧ t.iv = s.iv ∧
      valBe t.ctr = (valBe s.ctr + len / s.bs) % 256 ^ s.bs ∧
      ∀ k < len / s.bs, t.memRead (k * s.bs) s.bs =
        xorBlock (s.memRead (k * s.bs) s.bs) (s.enc (xorBlock (incBe^[k] s.ctr) s.iv))

/-- In OFB the keystream does not depend on the data: block k is XORed with Enc applied k + 1 times to the armed IV, and
IV ends at Enc applied n times (R127, R156). -/
def Obligations.OfbKeystream : Prop :=
  ∀ (len : Nat) (s : State) (i : Instr), EngineInv s → Runs len s → s.mode = 4 → s.canEnc = true →
    (i = .enc len ∨ (i = .dec len ∧ s.canDec = true)) →
    ∃ t, exec i s = .next t ∧ t.iv = s.enc^[len / s.bs] s.iv ∧ t.ctr = s.ctr ∧
      ∀ k < len / s.bs, t.memRead (k * s.bs) s.bs = xorBlock (s.memRead (k * s.bs) s.bs) (s.enc^[k + 1] s.iv)

/-- In CBC, DECRYPT of block k XORs Dec of it with the ciphertext block before it, IV for the first (R153). -/
def Obligations.CbcDecryptChains : Prop :=
  ∀ (len : Nat) (s : State), EngineInv s → Runs len s → s.mode = 1 → s.canDec = true →
    ∃ t, exec (.dec len) s = .next t ∧
      (0 < len → t.memRead 0 s.bs = xorBlock (s.dec (s.memRead 0 s.bs)) s.iv ∧
        t.iv = s.memRead (len - s.bs) s.bs) ∧
      ∀ k, k + 1 < len / s.bs → t.memRead ((k + 1) * s.bs) s.bs =
        xorBlock (s.dec (s.memRead ((k + 1) * s.bs) s.bs)) (s.memRead (k * s.bs) s.bs)

/-- In OFB, CTR and CTR-LE under LITTLE_ENDIAN, DECRYPT is the same function as ENCRYPT of the same state (R159). -/
def Obligations.KeystreamDecryptIsEncrypt : Prop :=
  ∀ (len : Nat) (s : State), s.canEnc = true → s.canDec = true →
    (s.mode = 4 ∨ s.mode = 5 ∨ (s.mode = 6 ∧ s.build.ctrle = .littleEndian)) →
    exec (.dec len) s = exec (.enc len) s

/-- R161. With both capabilities, arming a mode, encrypting, arming it again and decrypting gives the data back, for
every mode SET_MODE accepts, every IV in IV_IN and every content of BUF. -/
def Obligations.RoundTrip : Prop :=
  ∀ (len ivlen : Nat) (arm : Instr) (s s1 : State), EngineInv s → s.canEnc = true → s.canDec = true → Runs len s →
    arm ∈ setmodeRows ivlen → exec arm s = .next s1 → s1.result = 0 →
    ∃ s2 s3 s4, exec (.enc len) s1 = .next s2 ∧ exec arm s2 = .next s3 ∧ exec (.dec len) s3 = .next s4 ∧
      s4.result = 0 ∧ ∀ off < len, s4.bufByte off = s.bufByte off

/-- R190, R191. Every block rule makes exactly one adapter call, the router's, as far as its result can show it. At most
one: the result is a fixed function of the chaining state, the input block and that call's answer. At least one: different answers
give different output blocks. -/
def Obligations.BlockRulesMakeTheRouterCall : Prop :=
  ∀ p : Route,
    (∃ finish : Chain → Block → Block → Block × Chain, AnswerMatters finish ∧ ∀ enc c x,
      encBlock p enc c x = finish c x (match routerCall .encrypt p c x with | .fwd y => enc y | .inv _ => [])) ∧
    (∃ finish : Chain → Block → Block → Block × Chain, AnswerMatters finish ∧ ∀ enc dec c x,
      decBlock p enc dec c x = finish c x (match routerCall .decrypt p c x with | .fwd y => enc y | .inv y => dec y))

/-! ## The datapath -/

/-- R181. The laws of the XOR combiner. -/
def Obligations.XorBlockLaws : Prop :=
  ∀ (a b c : Block) (n : Nat), a.length = n → b.length = n → c.length = n →
    xorBlock a b = xorBlock b a ∧ xorBlock (xorBlock a b) c = xorBlock a (xorBlock b c) ∧
    xorBlock a a = List.replicate n 0 ∧ xorBlock a (List.replicate n 0) = a

/-- R183. inc_be adds one to the big-endian number, modulo 2^(8·BS); the all-FF block becomes the all-zero block. -/
def Obligations.IncBeAddsOne : Prop :=
  ∀ c : Block, (incBe c).length = c.length ∧ valBe (incBe c) = (valBe c + 1) % 2 ^ (8 * c.length) ∧
    incBe (List.replicate c.length 0xFF) = List.replicate c.length 0

/-- R184. inc_le adds one to the little-endian number, modulo 2^(8·BS). -/
def Obligations.IncLeAddsOne : Prop :=
  ∀ c : Block, (incLe c).length = c.length ∧ valLe (incLe c) = (valLe c + 1) % 2 ^ (8 * c.length)

/-- R10. The adapter's transforms give BS-byte blocks, and Dec undoes Enc on a handle with both capabilities. -/
def Obligations.DecUndoesEnc : Prop :=
  ∀ (s : State) (x : Block), (s.enc x).length = s.bs ∧ (s.dec x).length = s.bs ∧
    (s.canEnc = true → s.canDec = true → x.length = s.bs → s.dec (s.enc x) = x)

/-! ## The port -/

/-- An access gets a bus error exactly when it is misaligned, at a reserved offset, narrow at a word register, or a write
to something read-only (R66); it then changes no state and a read's data is 0 (R270). That the answer to a refused write carries
data 0 too is the model's choice (log entry 20). -/
def Obligations.BusErrorsChangeNothing : Prop :=
  ∀ (a : Access) (s : State),
    let addr := a.addr.toNat
    let bad := addr % a.width.bytes ≠ 0 ∨
      ((0x01C ≤ addr ∧ addr < 0x040) ∨ (0x070 ≤ addr ∧ addr < 0x100) ∨ 0x100 + s.build.nbuf ≤ addr) ∨
      (addr ≤ 0x01B ∧ a.width ≠ .w32) ∨
      (a.isWrite = true ∧ ((0x004 ≤ addr ∧ addr ≤ 0x01B) ∨ (0x050 ≤ addr ∧ addr ≤ 0x06F)))
    (bad → hostAccess a s = .next { s with answer := some { error := true, data := 0 } }) ∧
    (¬bad → ∃ t data, hostAccess a s = .next t ∧ t.answer = some { error := false, data := data })

/-- R64. A read changes no state, and the same read again gives the same answer. -/
def Obligations.ReadsHaveNoEffect : Prop :=
  ∀ (a : Addr) (w : Width) (s : State), ∃ answer,
    hostAccess (.read a w) s = .next { s with answer := some answer } ∧
    hostAccess (.read a w) { s with answer := some answer } = .next { s with answer := some answer }

/-- The 32-bit reads of the word registers: CMD (R37), STATUS (R28), MODEREG (R38), CAP (R39), CIPHER (R40), BLKSZ (R41),
KEYSZ (R42), field by field, in every state, FAULT = 1 among them (R246). -/
def Obligations.RegisterReads : Prop :=
  ∀ s : State, s.bs = 8 ∨ s.bs = 16 → s.keyBytes ≤ 8191 →
    let reads := fun (a : Addr) (d : Word) =>
      hostAccess (.read a .w32) s = .next { s with answer := some { error := false, data := d } }
    reads 0x000 0 ∧
    (∃ d, reads 0x004 d ∧ bits d 0 4 = s.result.toNat ∧ bits d 4 4 = 0 ∧ (bits d 8 1 = 1 ↔ s.fault = true) ∧ bits d 9 23 = 0) ∧
    (∃ d, reads 0x008 d ∧ bits d 0 3 = s.mode.toNat ∧ bits d 3 29 = 0) ∧
    (∃ d, reads 0x00C d ∧ (bits d 0 1 = 1 ↔ s.canEnc = true) ∧ (bits d 1 1 = 1 ↔ s.canDec = true) ∧ bits d 2 30 = 0) ∧
    (∃ d, reads 0x010 d ∧ bits d 0 8 = s.cipherId.toNat ∧ bits d 8 24 = 0) ∧
    (∃ d, reads 0x014 d ∧ bits d 0 16 = s.bs ∧ bits d 16 16 = 8 * s.bs) ∧
    (∃ d, reads 0x018 d ∧ bits d 0 16 = s.keyBytes ∧ bits d 16 16 = 8 * s.keyBytes)

/-- The 8-bit reads of the windows: IV_IN (R67), IVVIEW (R43), CTRVIEW (R44), zero at and above BS, and BUF (R32). -/
def Obligations.WindowReads : Prop :=
  ∀ s : State, s.build.nbuf ≤ 65280 →
    let reads := fun (a : Nat) (b : Byte) =>
      hostAccess (.read (BitVec.ofNat 16 a) .w8) s = .next { s with answer := some { error := false, data := b.setWidth 32 } }
    (∀ i < 16, i < s.bs →
      reads (0x040 + i) (s.ivIn.getD i 0) ∧ reads (0x050 + i) (s.iv.getD i 0) ∧ reads (0x060 + i) (s.ctr.getD i 0)) ∧
    (∀ i < 16, s.bs ≤ i → reads (0x040 + i) 0 ∧ reads (0x050 + i) 0 ∧ reads (0x060 + i) 0) ∧
    (∀ off < s.build.nbuf, reads (0x100 + off) (s.bufByte off))

/-- R63. A wide read of a window puts the byte at a + j, as an 8-bit read gives it, on data lane j, and zeros above. -/
def Obligations.WideReadsUseLanes : Prop :=
  ∀ (s : State) (a : Nat) (w : Width), s.build.wf → a % w.bytes = 0 → 0x040 ≤ a →
    (a < 0x070 ∨ (0x100 ≤ a ∧ a < 0x100 + s.build.nbuf)) →
    ∃ d : Word, hostAccess (.read (BitVec.ofNat 16 a) w) s = .next { s with answer := some { error := false, data := d } } ∧
      d.toNat < 256 ^ w.bytes ∧
      ∀ j < w.bytes, hostAccess (.read (BitVec.ofNat 16 (a + j)) .w8) s =
        .next { s with answer := some { error := false, data := (lane d j).setWidth 32 } }

/-- A write to BUF stores lane j of its value in byte a + j and changes nothing else, in every state (R63, R65, R72).
The data 0 of a write's answer is the model's (log entry 20). -/
def Obligations.BufWriteStoresLanes : Prop :=
  ∀ (s : State) (off : Nat) (w : Width) (v : Word), s.build.nbuf ≤ 65280 → off % w.bytes = 0 →
    off + w.bytes ≤ s.build.nbuf →
    ∃ t, hostAccess (.write (BitVec.ofNat 16 (0x100 + off)) w v) s = .next t ∧
      (∀ j < w.bytes, t.bufByte (off + j) = lane v j) ∧
      (∀ o, o < off ∨ off + w.bytes ≤ o → t.bufByte o = s.bufByte o) ∧
      t = { s with buf := t.buf, answer := some { error := false, data := 0 } }

/-- R67. A write to the IV_IN window stores its bytes below BS, ignores those at and above BS with no bus error, and
changes nothing else. The data 0 of a write's answer is the model's (log entry 20). -/
def Obligations.IvInWriteStoresLanes : Prop :=
  ∀ (s : State) (i : Nat) (w : Width) (v : Word), s.ivIn.length = s.bs → i % w.bytes = 0 → i < 16 →
    ∃ t, hostAccess (.write (BitVec.ofNat 16 (0x040 + i)) w v) s = .next t ∧
      t.ivIn.length = s.bs ∧
      (∀ j, t.ivIn.getD j 0 =
        if i ≤ j ∧ j < i + w.bytes ∧ j < s.bs then lane v (j - i) else s.ivIn.getD j 0) ∧
      t = { s with ivIn := t.ivIn, answer := some { error := false, data := 0 } }

/-- No access changes the constants of the handle, its flags, its schedule or the build parameters (R27, R33, R34). -/
def Obligations.AccessesKeepConstants : Prop :=
  ∀ (a : Access) (s t : State), hostAccess a s = .next t →
    t.bs = s.bs ∧ t.cipherId = s.cipherId ∧ t.keyBytes = s.keyBytes ∧ t.canEnc = s.canEnc ∧ t.canDec = s.canDec ∧
    t.adapter = s.adapter ∧ t.schedule = s.schedule ∧ t.build = s.build

/-- R29, R65, R219. An access that is no CMD write leaves RESULT, FAULT, MODE, IV and CTR alone, and a read IV_IN and BUF
too; and no command writes IV_IN. -/
def Obligations.OnlyCommandsWriteEngineState : Prop :=
  (∀ (a : Access) (s t : State), (∀ w, a ≠ .write 0x000 .w32 w) → hostAccess a s = .next t →
    t.result = s.result ∧ t.fault = s.fault ∧ t.mode = s.mode ∧ t.iv = s.iv ∧ t.ctr = s.ctr ∧
    (a.isWrite = false → t.ivIn = s.ivIn ∧ t.buf = s.buf)) ∧
  (∀ (w : Word) (s t : State), command w s = .next t → t.ivIn = s.ivIn)

/-- No read depends on S: a handle with another schedule and adapter answers every read the same (R34). -/
def Obligations.ScheduleIsHiddenFromReads : Prop :=
  ∀ (a : Addr) (w : Width) (s : State) (adapter : Config.Adapter) (schedule : List Byte), ∃ answer,
    hostAccess (.read a w) s = .next { s with answer := some answer } ∧
    hostAccess (.read a w) { s with adapter := adapter, schedule := schedule } =
      .next { s with adapter := adapter, schedule := schedule, answer := some answer }

/-! ## The sequencer -/

/-- R193. The sequencer takes every command word from DECODE back to IDLE, in at most one transition a block and four more,
and leaves the state the command leaves as one step. That the phases stand beside the machine, which runs a command
in one step, is the model's form (log entry 18). -/
def Obligations.SequencerRunsTheCommand : Prop :=
  ∀ (w : Word) (s : State), ∃ (n : Nat) (t : State), n ≤ s.build.nbuf / s.bs + 4 ∧ command w s = .next t ∧
    sequencerRun n (.decode w, s) = (.idle, t)
end

