-- ==== Sys2Proof/Laws/State.lean ====
section
/-! SUPPORT. One lemma per field per update of the state, so that no proof unfolds a record update. -/

namespace Sys2Proof.Machine

variable (s : State)

/-! ### setResult -/

@[simp] theorem State.setResult_build (r : ResultCode) : (s.setResult r).build = s.build := rfl
@[simp] theorem State.setResult_bs (r : ResultCode) : (s.setResult r).bs = s.bs := rfl
@[simp] theorem State.setResult_cipherId (r : ResultCode) : (s.setResult r).cipherId = s.cipherId := rfl
@[simp] theorem State.setResult_keyBytes (r : ResultCode) : (s.setResult r).keyBytes = s.keyBytes := rfl
@[simp] theorem State.setResult_canEnc (r : ResultCode) : (s.setResult r).canEnc = s.canEnc := rfl
@[simp] theorem State.setResult_canDec (r : ResultCode) : (s.setResult r).canDec = s.canDec := rfl
@[simp] theorem State.setResult_adapter (r : ResultCode) : (s.setResult r).adapter = s.adapter := rfl
@[simp] theorem State.setResult_schedule (r : ResultCode) : (s.setResult r).schedule = s.schedule := rfl
@[simp] theorem State.setResult_mode (r : ResultCode) : (s.setResult r).mode = s.mode := rfl
@[simp] theorem State.setResult_iv (r : ResultCode) : (s.setResult r).iv = s.iv := rfl
@[simp] theorem State.setResult_ctr (r : ResultCode) : (s.setResult r).ctr = s.ctr := rfl
@[simp] theorem State.setResult_result (r : ResultCode) : (s.setResult r).result = r.code := rfl
@[simp] theorem State.setResult_fault (r : ResultCode) : (s.setResult r).fault = s.fault := rfl
@[simp] theorem State.setResult_ivIn (r : ResultCode) : (s.setResult r).ivIn = s.ivIn := rfl
@[simp] theorem State.setResult_buf (r : ResultCode) : (s.setResult r).buf = s.buf := rfl
@[simp] theorem State.setResult_draw (r : ResultCode) : (s.setResult r).draw = s.draw := rfl
@[simp] theorem State.setResult_port (r : ResultCode) : (s.setResult r).port = s.port := rfl
@[simp] theorem State.setResult_answer (r : ResultCode) : (s.setResult r).answer = s.answer := rfl

/-! ### setFault -/

@[simp] theorem State.setFault_build : (s.setFault).build = s.build := rfl
@[simp] theorem State.setFault_bs : (s.setFault).bs = s.bs := rfl
@[simp] theorem State.setFault_cipherId : (s.setFault).cipherId = s.cipherId := rfl
@[simp] theorem State.setFault_keyBytes : (s.setFault).keyBytes = s.keyBytes := rfl
@[simp] theorem State.setFault_canEnc : (s.setFault).canEnc = s.canEnc := rfl
@[simp] theorem State.setFault_canDec : (s.setFault).canDec = s.canDec := rfl
@[simp] theorem State.setFault_adapter : (s.setFault).adapter = s.adapter := rfl
@[simp] theorem State.setFault_schedule : (s.setFault).schedule = s.schedule := rfl
@[simp] theorem State.setFault_mode : (s.setFault).mode = s.mode := rfl
@[simp] theorem State.setFault_iv : (s.setFault).iv = s.iv := rfl
@[simp] theorem State.setFault_ctr : (s.setFault).ctr = s.ctr := rfl
@[simp] theorem State.setFault_result : (s.setFault).result = s.result := rfl
@[simp] theorem State.setFault_fault : (s.setFault).fault = true := rfl
@[simp] theorem State.setFault_ivIn : (s.setFault).ivIn = s.ivIn := rfl
@[simp] theorem State.setFault_buf : (s.setFault).buf = s.buf := rfl
@[simp] theorem State.setFault_draw : (s.setFault).draw = s.draw := rfl
@[simp] theorem State.setFault_port : (s.setFault).port = s.port := rfl
@[simp] theorem State.setFault_answer : (s.setFault).answer = s.answer := rfl

/-! ### setMode -/

@[simp] theorem State.setMode_build (m : BitVec 3) : (s.setMode m).build = s.build := rfl
@[simp] theorem State.setMode_bs (m : BitVec 3) : (s.setMode m).bs = s.bs := rfl
@[simp] theorem State.setMode_cipherId (m : BitVec 3) : (s.setMode m).cipherId = s.cipherId := rfl
@[simp] theorem State.setMode_keyBytes (m : BitVec 3) : (s.setMode m).keyBytes = s.keyBytes := rfl
@[simp] theorem State.setMode_canEnc (m : BitVec 3) : (s.setMode m).canEnc = s.canEnc := rfl
@[simp] theorem State.setMode_canDec (m : BitVec 3) : (s.setMode m).canDec = s.canDec := rfl
@[simp] theorem State.setMode_adapter (m : BitVec 3) : (s.setMode m).adapter = s.adapter := rfl
@[simp] theorem State.setMode_schedule (m : BitVec 3) : (s.setMode m).schedule = s.schedule := rfl
@[simp] theorem State.setMode_mode (m : BitVec 3) : (s.setMode m).mode = m := rfl
@[simp] theorem State.setMode_iv (m : BitVec 3) : (s.setMode m).iv = s.iv := rfl
@[simp] theorem State.setMode_ctr (m : BitVec 3) : (s.setMode m).ctr = s.ctr := rfl
@[simp] theorem State.setMode_result (m : BitVec 3) : (s.setMode m).result = s.result := rfl
@[simp] theorem State.setMode_fault (m : BitVec 3) : (s.setMode m).fault = s.fault := rfl
@[simp] theorem State.setMode_ivIn (m : BitVec 3) : (s.setMode m).ivIn = s.ivIn := rfl
@[simp] theorem State.setMode_buf (m : BitVec 3) : (s.setMode m).buf = s.buf := rfl
@[simp] theorem State.setMode_draw (m : BitVec 3) : (s.setMode m).draw = s.draw := rfl
@[simp] theorem State.setMode_port (m : BitVec 3) : (s.setMode m).port = s.port := rfl
@[simp] theorem State.setMode_answer (m : BitVec 3) : (s.setMode m).answer = s.answer := rfl

/-! ### setIv -/

@[simp] theorem State.setIv_build (b : Block) : (s.setIv b).build = s.build := rfl
@[simp] theorem State.setIv_bs (b : Block) : (s.setIv b).bs = s.bs := rfl
@[simp] theorem State.setIv_cipherId (b : Block) : (s.setIv b).cipherId = s.cipherId := rfl
@[simp] theorem State.setIv_keyBytes (b : Block) : (s.setIv b).keyBytes = s.keyBytes := rfl
@[simp] theorem State.setIv_canEnc (b : Block) : (s.setIv b).canEnc = s.canEnc := rfl
@[simp] theorem State.setIv_canDec (b : Block) : (s.setIv b).canDec = s.canDec := rfl
@[simp] theorem State.setIv_adapter (b : Block) : (s.setIv b).adapter = s.adapter := rfl
@[simp] theorem State.setIv_schedule (b : Block) : (s.setIv b).schedule = s.schedule := rfl
@[simp] theorem State.setIv_mode (b : Block) : (s.setIv b).mode = s.mode := rfl
@[simp] theorem State.setIv_iv (b : Block) : (s.setIv b).iv = b := rfl
@[simp] theorem State.setIv_ctr (b : Block) : (s.setIv b).ctr = s.ctr := rfl
@[simp] theorem State.setIv_result (b : Block) : (s.setIv b).result = s.result := rfl
@[simp] theorem State.setIv_fault (b : Block) : (s.setIv b).fault = s.fault := rfl
@[simp] theorem State.setIv_ivIn (b : Block) : (s.setIv b).ivIn = s.ivIn := rfl
@[simp] theorem State.setIv_buf (b : Block) : (s.setIv b).buf = s.buf := rfl
@[simp] theorem State.setIv_draw (b : Block) : (s.setIv b).draw = s.draw := rfl
@[simp] theorem State.setIv_port (b : Block) : (s.setIv b).port = s.port := rfl
@[simp] theorem State.setIv_answer (b : Block) : (s.setIv b).answer = s.answer := rfl

/-! ### setCtr -/

@[simp] theorem State.setCtr_build (b : Block) : (s.setCtr b).build = s.build := rfl
@[simp] theorem State.setCtr_bs (b : Block) : (s.setCtr b).bs = s.bs := rfl
@[simp] theorem State.setCtr_cipherId (b : Block) : (s.setCtr b).cipherId = s.cipherId := rfl
@[simp] theorem State.setCtr_keyBytes (b : Block) : (s.setCtr b).keyBytes = s.keyBytes := rfl
@[simp] theorem State.setCtr_canEnc (b : Block) : (s.setCtr b).canEnc = s.canEnc := rfl
@[simp] theorem State.setCtr_canDec (b : Block) : (s.setCtr b).canDec = s.canDec := rfl
@[simp] theorem State.setCtr_adapter (b : Block) : (s.setCtr b).adapter = s.adapter := rfl
@[simp] theorem State.setCtr_schedule (b : Block) : (s.setCtr b).schedule = s.schedule := rfl
@[simp] theorem State.setCtr_mode (b : Block) : (s.setCtr b).mode = s.mode := rfl
@[simp] theorem State.setCtr_iv (b : Block) : (s.setCtr b).iv = s.iv := rfl
@[simp] theorem State.setCtr_ctr (b : Block) : (s.setCtr b).ctr = b := rfl
@[simp] theorem State.setCtr_result (b : Block) : (s.setCtr b).result = s.result := rfl
@[simp] theorem State.setCtr_fault (b : Block) : (s.setCtr b).fault = s.fault := rfl
@[simp] theorem State.setCtr_ivIn (b : Block) : (s.setCtr b).ivIn = s.ivIn := rfl
@[simp] theorem State.setCtr_buf (b : Block) : (s.setCtr b).buf = s.buf := rfl
@[simp] theorem State.setCtr_draw (b : Block) : (s.setCtr b).draw = s.draw := rfl
@[simp] theorem State.setCtr_port (b : Block) : (s.setCtr b).port = s.port := rfl
@[simp] theorem State.setCtr_answer (b : Block) : (s.setCtr b).answer = s.answer := rfl

/-! ### setIvIn -/

@[simp] theorem State.setIvIn_build (b : Block) : (s.setIvIn b).build = s.build := rfl
@[simp] theorem State.setIvIn_bs (b : Block) : (s.setIvIn b).bs = s.bs := rfl
@[simp] theorem State.setIvIn_cipherId (b : Block) : (s.setIvIn b).cipherId = s.cipherId := rfl
@[simp] theorem State.setIvIn_keyBytes (b : Block) : (s.setIvIn b).keyBytes = s.keyBytes := rfl
@[simp] theorem State.setIvIn_canEnc (b : Block) : (s.setIvIn b).canEnc = s.canEnc := rfl
@[simp] theorem State.setIvIn_canDec (b : Block) : (s.setIvIn b).canDec = s.canDec := rfl
@[simp] theorem State.setIvIn_adapter (b : Block) : (s.setIvIn b).adapter = s.adapter := rfl
@[simp] theorem State.setIvIn_schedule (b : Block) : (s.setIvIn b).schedule = s.schedule := rfl
@[simp] theorem State.setIvIn_mode (b : Block) : (s.setIvIn b).mode = s.mode := rfl
@[simp] theorem State.setIvIn_iv (b : Block) : (s.setIvIn b).iv = s.iv := rfl
@[simp] theorem State.setIvIn_ctr (b : Block) : (s.setIvIn b).ctr = s.ctr := rfl
@[simp] theorem State.setIvIn_result (b : Block) : (s.setIvIn b).result = s.result := rfl
@[simp] theorem State.setIvIn_fault (b : Block) : (s.setIvIn b).fault = s.fault := rfl
@[simp] theorem State.setIvIn_ivIn (b : Block) : (s.setIvIn b).ivIn = b := rfl
@[simp] theorem State.setIvIn_buf (b : Block) : (s.setIvIn b).buf = s.buf := rfl
@[simp] theorem State.setIvIn_draw (b : Block) : (s.setIvIn b).draw = s.draw := rfl
@[simp] theorem State.setIvIn_port (b : Block) : (s.setIvIn b).port = s.port := rfl
@[simp] theorem State.setIvIn_answer (b : Block) : (s.setIvIn b).answer = s.answer := rfl

/-! ### setBuf -/

@[simp] theorem State.setBuf_build (m : Memory) : (s.setBuf m).build = s.build := rfl
@[simp] theorem State.setBuf_bs (m : Memory) : (s.setBuf m).bs = s.bs := rfl
@[simp] theorem State.setBuf_cipherId (m : Memory) : (s.setBuf m).cipherId = s.cipherId := rfl
@[simp] theorem State.setBuf_keyBytes (m : Memory) : (s.setBuf m).keyBytes = s.keyBytes := rfl
@[simp] theorem State.setBuf_canEnc (m : Memory) : (s.setBuf m).canEnc = s.canEnc := rfl
@[simp] theorem State.setBuf_canDec (m : Memory) : (s.setBuf m).canDec = s.canDec := rfl
@[simp] theorem State.setBuf_adapter (m : Memory) : (s.setBuf m).adapter = s.adapter := rfl
@[simp] theorem State.setBuf_schedule (m : Memory) : (s.setBuf m).schedule = s.schedule := rfl
@[simp] theorem State.setBuf_mode (m : Memory) : (s.setBuf m).mode = s.mode := rfl
@[simp] theorem State.setBuf_iv (m : Memory) : (s.setBuf m).iv = s.iv := rfl
@[simp] theorem State.setBuf_ctr (m : Memory) : (s.setBuf m).ctr = s.ctr := rfl
@[simp] theorem State.setBuf_result (m : Memory) : (s.setBuf m).result = s.result := rfl
@[simp] theorem State.setBuf_fault (m : Memory) : (s.setBuf m).fault = s.fault := rfl
@[simp] theorem State.setBuf_ivIn (m : Memory) : (s.setBuf m).ivIn = s.ivIn := rfl
@[simp] theorem State.setBuf_buf (m : Memory) : (s.setBuf m).buf = m := rfl
@[simp] theorem State.setBuf_draw (m : Memory) : (s.setBuf m).draw = s.draw := rfl
@[simp] theorem State.setBuf_port (m : Memory) : (s.setBuf m).port = s.port := rfl
@[simp] theorem State.setBuf_answer (m : Memory) : (s.setBuf m).answer = s.answer := rfl

/-! ### setPort -/

@[simp] theorem State.setPort_build (p : List Event) : (s.setPort p).build = s.build := rfl
@[simp] theorem State.setPort_bs (p : List Event) : (s.setPort p).bs = s.bs := rfl
@[simp] theorem State.setPort_cipherId (p : List Event) : (s.setPort p).cipherId = s.cipherId := rfl
@[simp] theorem State.setPort_keyBytes (p : List Event) : (s.setPort p).keyBytes = s.keyBytes := rfl
@[simp] theorem State.setPort_canEnc (p : List Event) : (s.setPort p).canEnc = s.canEnc := rfl
@[simp] theorem State.setPort_canDec (p : List Event) : (s.setPort p).canDec = s.canDec := rfl
@[simp] theorem State.setPort_adapter (p : List Event) : (s.setPort p).adapter = s.adapter := rfl
@[simp] theorem State.setPort_schedule (p : List Event) : (s.setPort p).schedule = s.schedule := rfl
@[simp] theorem State.setPort_mode (p : List Event) : (s.setPort p).mode = s.mode := rfl
@[simp] theorem State.setPort_iv (p : List Event) : (s.setPort p).iv = s.iv := rfl
@[simp] theorem State.setPort_ctr (p : List Event) : (s.setPort p).ctr = s.ctr := rfl
@[simp] theorem State.setPort_result (p : List Event) : (s.setPort p).result = s.result := rfl
@[simp] theorem State.setPort_fault (p : List Event) : (s.setPort p).fault = s.fault := rfl
@[simp] theorem State.setPort_ivIn (p : List Event) : (s.setPort p).ivIn = s.ivIn := rfl
@[simp] theorem State.setPort_buf (p : List Event) : (s.setPort p).buf = s.buf := rfl
@[simp] theorem State.setPort_draw (p : List Event) : (s.setPort p).draw = s.draw := rfl
@[simp] theorem State.setPort_port (p : List Event) : (s.setPort p).port = p := rfl
@[simp] theorem State.setPort_answer (p : List Event) : (s.setPort p).answer = s.answer := rfl

/-! ### setAnswer -/

@[simp] theorem State.setAnswer_build (a : Answer) : (s.setAnswer a).build = s.build := rfl
@[simp] theorem State.setAnswer_bs (a : Answer) : (s.setAnswer a).bs = s.bs := rfl
@[simp] theorem State.setAnswer_cipherId (a : Answer) : (s.setAnswer a).cipherId = s.cipherId := rfl
@[simp] theorem State.setAnswer_keyBytes (a : Answer) : (s.setAnswer a).keyBytes = s.keyBytes := rfl
@[simp] theorem State.setAnswer_canEnc (a : Answer) : (s.setAnswer a).canEnc = s.canEnc := rfl
@[simp] theorem State.setAnswer_canDec (a : Answer) : (s.setAnswer a).canDec = s.canDec := rfl
@[simp] theorem State.setAnswer_adapter (a : Answer) : (s.setAnswer a).adapter = s.adapter := rfl
@[simp] theorem State.setAnswer_schedule (a : Answer) : (s.setAnswer a).schedule = s.schedule := rfl
@[simp] theorem State.setAnswer_mode (a : Answer) : (s.setAnswer a).mode = s.mode := rfl
@[simp] theorem State.setAnswer_iv (a : Answer) : (s.setAnswer a).iv = s.iv := rfl
@[simp] theorem State.setAnswer_ctr (a : Answer) : (s.setAnswer a).ctr = s.ctr := rfl
@[simp] theorem State.setAnswer_result (a : Answer) : (s.setAnswer a).result = s.result := rfl
@[simp] theorem State.setAnswer_fault (a : Answer) : (s.setAnswer a).fault = s.fault := rfl
@[simp] theorem State.setAnswer_ivIn (a : Answer) : (s.setAnswer a).ivIn = s.ivIn := rfl
@[simp] theorem State.setAnswer_buf (a : Answer) : (s.setAnswer a).buf = s.buf := rfl
@[simp] theorem State.setAnswer_draw (a : Answer) : (s.setAnswer a).draw = s.draw := rfl
@[simp] theorem State.setAnswer_port (a : Answer) : (s.setAnswer a).port = s.port := rfl
@[simp] theorem State.setAnswer_answer (a : Answer) : (s.setAnswer a).answer = some a := rfl

/-! ### setChain -/

@[simp] theorem State.setChain_build (c : Chain) : (s.setChain c).build = s.build := rfl
@[simp] theorem State.setChain_bs (c : Chain) : (s.setChain c).bs = s.bs := rfl
@[simp] theorem State.setChain_cipherId (c : Chain) : (s.setChain c).cipherId = s.cipherId := rfl
@[simp] theorem State.setChain_keyBytes (c : Chain) : (s.setChain c).keyBytes = s.keyBytes := rfl
@[simp] theorem State.setChain_canEnc (c : Chain) : (s.setChain c).canEnc = s.canEnc := rfl
@[simp] theorem State.setChain_canDec (c : Chain) : (s.setChain c).canDec = s.canDec := rfl
@[simp] theorem State.setChain_adapter (c : Chain) : (s.setChain c).adapter = s.adapter := rfl
@[simp] theorem State.setChain_schedule (c : Chain) : (s.setChain c).schedule = s.schedule := rfl
@[simp] theorem State.setChain_mode (c : Chain) : (s.setChain c).mode = s.mode := rfl
@[simp] theorem State.setChain_iv (c : Chain) : (s.setChain c).iv = c.iv := rfl
@[simp] theorem State.setChain_ctr (c : Chain) : (s.setChain c).ctr = c.ctr := rfl
@[simp] theorem State.setChain_result (c : Chain) : (s.setChain c).result = s.result := rfl
@[simp] theorem State.setChain_fault (c : Chain) : (s.setChain c).fault = s.fault := rfl
@[simp] theorem State.setChain_ivIn (c : Chain) : (s.setChain c).ivIn = s.ivIn := rfl
@[simp] theorem State.setChain_buf (c : Chain) : (s.setChain c).buf = s.buf := rfl
@[simp] theorem State.setChain_draw (c : Chain) : (s.setChain c).draw = s.draw := rfl
@[simp] theorem State.setChain_port (c : Chain) : (s.setChain c).port = s.port := rfl
@[simp] theorem State.setChain_answer (c : Chain) : (s.setChain c).answer = s.answer := rfl

/-! ### memWrite -/

@[simp] theorem State.memWrite_build (off : Nat) (v : Block) : (s.memWrite off v).build = s.build := rfl
@[simp] theorem State.memWrite_bs (off : Nat) (v : Block) : (s.memWrite off v).bs = s.bs := rfl
@[simp] theorem State.memWrite_cipherId (off : Nat) (v : Block) : (s.memWrite off v).cipherId = s.cipherId := rfl
@[simp] theorem State.memWrite_keyBytes (off : Nat) (v : Block) : (s.memWrite off v).keyBytes = s.keyBytes := rfl
@[simp] theorem State.memWrite_canEnc (off : Nat) (v : Block) : (s.memWrite off v).canEnc = s.canEnc := rfl
@[simp] theorem State.memWrite_canDec (off : Nat) (v : Block) : (s.memWrite off v).canDec = s.canDec := rfl
@[simp] theorem State.memWrite_adapter (off : Nat) (v : Block) : (s.memWrite off v).adapter = s.adapter := rfl
@[simp] theorem State.memWrite_schedule (off : Nat) (v : Block) : (s.memWrite off v).schedule = s.schedule := rfl
@[simp] theorem State.memWrite_mode (off : Nat) (v : Block) : (s.memWrite off v).mode = s.mode := rfl
@[simp] theorem State.memWrite_iv (off : Nat) (v : Block) : (s.memWrite off v).iv = s.iv := rfl
@[simp] theorem State.memWrite_ctr (off : Nat) (v : Block) : (s.memWrite off v).ctr = s.ctr := rfl
@[simp] theorem State.memWrite_result (off : Nat) (v : Block) : (s.memWrite off v).result = s.result := rfl
@[simp] theorem State.memWrite_fault (off : Nat) (v : Block) : (s.memWrite off v).fault = s.fault := rfl
@[simp] theorem State.memWrite_ivIn (off : Nat) (v : Block) : (s.memWrite off v).ivIn = s.ivIn := rfl
@[simp] theorem State.memWrite_buf (off : Nat) (v : Block) : (s.memWrite off v).buf = s.buf.writeBytes off v := rfl
@[simp] theorem State.memWrite_draw (off : Nat) (v : Block) : (s.memWrite off v).draw = s.draw := rfl
@[simp] theorem State.memWrite_port (off : Nat) (v : Block) : (s.memWrite off v).port = s.port := rfl
@[simp] theorem State.memWrite_answer (off : Nat) (v : Block) : (s.memWrite off v).answer = s.answer := rfl

/-! ### the chaining state -/

@[simp] theorem State.chain_iv : s.chain.iv = s.iv := rfl
@[simp] theorem State.chain_ctr : s.chain.ctr = s.ctr := rfl
@[simp] theorem State.setChain_chain (c : Chain) : (s.setChain c).chain = c := rfl
@[simp] theorem State.memWrite_chain (off : Nat) (v : Block) : (s.memWrite off v).chain = s.chain := rfl

/-! ### constructed -/

section
variable (b : Config.Build) (n : Nat) (p : List Event) (i : Inputs)

@[simp] theorem constructed_build : (constructed b n p i).build = b := rfl
@[simp] theorem constructed_bs : (constructed b n p i).bs = blockSize i.adapter := rfl
@[simp] theorem constructed_cipherId : (constructed b n p i).cipherId = BitVec.ofNat 8 i.cipherId := rfl
@[simp] theorem constructed_keyBytes : (constructed b n p i).keyBytes = i.keyBytes := rfl
@[simp] theorem constructed_canEnc : (constructed b n p i).canEnc = i.canEnc := rfl
@[simp] theorem constructed_canDec : (constructed b n p i).canDec = i.canDec := rfl
@[simp] theorem constructed_adapter : (constructed b n p i).adapter = i.adapter := rfl
@[simp] theorem constructed_schedule : (constructed b n p i).schedule = keySetup i.adapter i.key (8 * i.keyBytes) := rfl
@[simp] theorem constructed_mode : (constructed b n p i).mode = 0 := rfl
@[simp] theorem constructed_iv : (constructed b n p i).iv = zeroBlock (blockSize i.adapter) := rfl
@[simp] theorem constructed_ctr : (constructed b n p i).ctr = zeroBlock (blockSize i.adapter) := rfl
@[simp] theorem constructed_result : (constructed b n p i).result = 0 := rfl
@[simp] theorem constructed_fault : (constructed b n p i).fault = false := rfl
@[simp] theorem constructed_ivIn : (constructed b n p i).ivIn = zeroBlock (blockSize i.adapter) := rfl
@[simp] theorem constructed_buf : (constructed b n p i).buf = [] := rfl
@[simp] theorem constructed_draw : (constructed b n p i).draw = n := rfl
@[simp] theorem constructed_port : (constructed b n p i).port = p := rfl
@[simp] theorem constructed_answer : (constructed b n p i).answer = none := rfl
end

end Sys2Proof.Machine
end

