-- ==== Sys2Proof/Laws/Memory.lean ====
section
/-! SUPPORT. What the operations over BUF do: reads after writes, and the canonical form. -/

namespace Sys2Proof.Machine

/-- A read after a write: the written byte at its offset, the old one elsewhere (20_memory.md R72). -/
theorem Memory.read_write (m : Memory) (off : Nat) (v : Byte) (a : Nat) :
    (m.write off v).read a = if a = off then some v else m.read a := by
  induction m with
  | nil =>
    simp only [Memory.write, Memory.read, Memory.unlisted]
    split <;> split <;> simp_all
  | cons c rest ih =>
    obtain ⟨k, b⟩ := c
    by_cases e : a = off
    · subst e
      simp only [Memory.write]
      split_ifs with h1 h2
      · simp [Memory.read]
      · simp [Memory.read]
      · simp only [Memory.read, if_neg (Ne.symm h2), ih, if_true]
    · have e' : off ≠ a := Ne.symm e
      rw [if_neg e] at ih ⊢
      simp only [Memory.write]
      split_ifs with h1 h2
      · simp only [Memory.read, if_neg e']
      · subst h2; simp only [Memory.read, if_neg e']
      · simp only [Memory.read, ih]

theorem Memory.mem_write {m : Memory} {off : Nat} {v : Byte} {c : Host.Cell} (h : c ∈ m.write off v) :
    c = (off, v) ∨ c ∈ m := by
  induction m with
  | nil => simpa [Memory.write] using h
  | cons d rest ih =>
    obtain ⟨k, b⟩ := d
    simp only [Memory.write] at h
    split_ifs at h with h1 h2
    · simpa using h
    · simp only [List.mem_cons] at h ⊢; tauto
    · rcases List.mem_cons.mp h with h | h
      · exact .inr (by simp [h])
      · rcases ih h with h | h
        · exact .inl h
        · exact .inr (by simp [h])

theorem Memory.write_rising {m : Memory} (off : Nat) (v : Byte) (h : m.Pairwise (fun x y => x.1 < y.1)) :
    (m.write off v).Pairwise (fun x y => x.1 < y.1) := by
  induction m with
  | nil => simp [Memory.write]
  | cons d rest ih =>
    obtain ⟨k, b⟩ := d
    obtain ⟨hk, hr⟩ := List.pairwise_cons.mp h
    simp only [Memory.write]
    split_ifs with h1 h2
    · refine List.pairwise_cons.mpr ⟨?_, h⟩
      intro c hc
      rcases List.mem_cons.mp hc with rfl | hc
      · exact h1
      · exact lt_trans h1 (hk c hc)
    · subst h2
      exact List.pairwise_cons.mpr ⟨hk, hr⟩
    · refine List.pairwise_cons.mpr ⟨?_, ih hr⟩
      intro c hc
      rcases Memory.mem_write hc with rfl | hc
      · show k < off; omega
      · exact hk c hc

/-- A write keeps the canonical form. -/
theorem Memory.write_wf {m : Memory} (off : Nat) (v : Byte) (h : m.wf) : (m.write off v).wf :=
  ⟨Memory.write_rising off v h.1, fun c _ => by simp [Memory.unlisted]⟩

theorem Memory.writeBytes_rising {m : Memory} (off : Nat) (l : List Byte) (h : m.Pairwise (fun x y => x.1 < y.1)) :
    (m.writeBytes off l).Pairwise (fun x y => x.1 < y.1) := by
  induction l generalizing m off with
  | nil => exact h
  | cons b rest ih => exact ih _ (Memory.write_rising off b h)

/-- Writing a byte sequence keeps the canonical form. -/
theorem Memory.writeBytes_wf {m : Memory} (off : Nat) (l : List Byte) (h : m.wf) : (m.writeBytes off l).wf :=
  ⟨Memory.writeBytes_rising off l h.1, fun c _ => by simp [Memory.unlisted]⟩

theorem Memory.mem_writeBytes {m : Memory} {off : Nat} {l : List Byte} {c : Host.Cell} (h : c ∈ m.writeBytes off l) :
    (off ≤ c.1 ∧ c.1 < off + l.length) ∨ c ∈ m := by
  induction l generalizing m off with
  | nil => exact .inr h
  | cons b rest ih =>
    rcases ih h with h | h
    · exact .inl ⟨by omega, by simp only [List.length_cons]; omega⟩
    · rcases Memory.mem_write h with rfl | h
      · exact .inl (by simp)
      · exact .inr h

/-- A read after writing a byte sequence: the written byte inside, the old one outside. -/
theorem Memory.read_writeBytes (m : Memory) (off : Nat) (l : List Byte) (a : Nat) :
    (m.writeBytes off l).read a = if off ≤ a ∧ a < off + l.length then l[a - off]? else m.read a := by
  induction l generalizing m off with
  | nil =>
    rw [if_neg (by simp)]; rfl
  | cons b rest ih =>
    rw [Memory.writeBytes, ih, Memory.read_write]
    simp only [List.length_cons]
    by_cases e : a = off
    · have : ¬(off + 1 ≤ a ∧ a < off + 1 + rest.length) := by omega
      rw [if_neg this, if_pos e, if_pos (by omega)]
      simp [e]
    · by_cases i : off + 1 ≤ a ∧ a < off + 1 + rest.length
      · have e' : a - off = (a - (off + 1)) + 1 := by omega
        rw [if_pos i, if_pos (by omega), e', List.getElem?_cons_succ]
      · rw [if_neg i, if_neg e, if_neg (by omega)]

/-- A byte of BUF after `MemWrite`: the written byte inside, the old one outside. -/
theorem State.bufByte_memWrite (s : State) (off : Nat) (v : Block) (a : Nat) :
    (s.memWrite off v).bufByte a = if off ≤ a ∧ a < off + v.length then v.getD (a - off) 0 else s.bufByte a := by
  simp only [State.bufByte, State.memWrite_buf, State.memWrite_draw, Memory.read_writeBytes]
  split_ifs with i
  · have : a - off < v.length := by omega
    simp [List.getD_eq_getElem?_getD, this]
  · rfl

/-! ### the byte BUF reads as does not depend on anything but BUF and the draw -/

@[simp] theorem State.bufByte_setResult (s : State) (r : ResultCode) (a : Nat) : (s.setResult r).bufByte a = s.bufByte a := rfl
@[simp] theorem State.bufByte_setFault (s : State) (a : Nat) : s.setFault.bufByte a = s.bufByte a := rfl
@[simp] theorem State.bufByte_setMode (s : State) (m : BitVec 3) (a : Nat) : (s.setMode m).bufByte a = s.bufByte a := rfl
@[simp] theorem State.bufByte_setIv (s : State) (b : Block) (a : Nat) : (s.setIv b).bufByte a = s.bufByte a := rfl
@[simp] theorem State.bufByte_setCtr (s : State) (b : Block) (a : Nat) : (s.setCtr b).bufByte a = s.bufByte a := rfl
@[simp] theorem State.bufByte_setIvIn (s : State) (b : Block) (a : Nat) : (s.setIvIn b).bufByte a = s.bufByte a := rfl
@[simp] theorem State.bufByte_setChain (s : State) (c : Chain) (a : Nat) : (s.setChain c).bufByte a = s.bufByte a := rfl
@[simp] theorem State.bufByte_setPort (s : State) (p : List Event) (a : Nat) : (s.setPort p).bufByte a = s.bufByte a := rfl
@[simp] theorem State.bufByte_setAnswer (s : State) (x : Answer) (a : Nat) : (s.setAnswer x).bufByte a = s.bufByte a := rfl

/-! ### blocks of BUF -/

@[simp] theorem blockOf_length (n : Nat) (f : Nat → Byte) : (blockOf n f).length = n := by simp [blockOf]

theorem blockOf_getD (n : Nat) (f : Nat → Byte) (i : Nat) (h : i < n) : (blockOf n f).getD i 0 = f i := by
  simp [blockOf, List.getD_eq_getElem?_getD, h]

theorem blockOf_congr {n : Nat} {f g : Nat → Byte} (h : ∀ i < n, f i = g i) : blockOf n f = blockOf n g :=
  List.map_congr_left fun i hi => h i (List.mem_range.mp hi)

@[simp] theorem zeroBlock_length (n : Nat) : (zeroBlock n).length = n := by simp [zeroBlock]

@[simp] theorem State.memRead_length (s : State) (off n : Nat) : (s.memRead off n).length = n := by simp [State.memRead]

theorem State.memRead_getD (s : State) (off n i : Nat) (h : i < n) : (s.memRead off n).getD i 0 = s.bufByte (off + i) :=
  blockOf_getD _ _ _ h

/-- A block reads the same where its bytes do. -/
theorem State.memRead_congr {s t : State} {off n : Nat} (h : ∀ i < n, s.bufByte (off + i) = t.bufByte (off + i)) :
    s.memRead off n = t.memRead off n := blockOf_congr h

/-- Two blocks of n bytes are equal where their bytes are. -/
theorem block_ext {x y : Block} (hl : x.length = y.length) (h : ∀ i < x.length, x.getD i 0 = y.getD i 0) : x = y := by
  apply List.ext_getElem hl
  intro i h1 h2
  simpa [List.getD_eq_getElem?_getD, h1, h2] using h i h1

/-- The block just written reads back. -/
theorem State.memRead_memWrite_same (s : State) (off : Nat) (v : Block) :
    (s.memWrite off v).memRead off v.length = v := by
  apply block_ext (by simp)
  intro i hi
  simp only [State.memRead_length] at hi
  rw [State.memRead_getD _ _ _ _ hi, State.bufByte_memWrite, if_pos ⟨by omega, by omega⟩]
  congr 1; omega

/-- A block the write does not meet reads as before. -/
theorem State.memRead_memWrite_apart (s : State) (off : Nat) (v : Block) (o n : Nat)
    (d : o + n ≤ off ∨ off + v.length ≤ o) :
    (s.memWrite off v).memRead o n = s.memRead o n := by
  apply State.memRead_congr
  intro i hi
  rw [State.bufByte_memWrite, if_neg]
  omega

end Sys2Proof.Machine
end

