-- ==== Sys2Proof/Laws/Commands.lean ====
section
/-! SUPPORT. What a command can do: it always completes, and each shared operation's effect, said once. -/

namespace Sys2Proof.Machine

/-! ## Completion -/

/-- A command body behind the fault check: what the fault check and the body give, as one next state. -/
theorem unlessFault_eq (f : State → State) (s : State) :
    unlessFault f s = .next (if s.fault then fail .eFault s else f s) := by
  unfold unlessFault; split <;> rfl

theorem unlessFault_of_fault {f : State → State} {s : State} (h : s.fault = true) :
    unlessFault f s = .next (s.setResult .eFault) := by simp [unlessFault, h, fail]

theorem unlessFault_of_noFault {f : State → State} {s : State} (h : s.fault = false) : unlessFault f s = .next (f s) := by
  simp [unlessFault, h]

/-- The state change a command makes outside the fault state. -/
def effect (i : Instr) : State → State :=
  match i with
  | .setmodeEcb ivlen => setMode 0 ivlen
  | .setmodeCbc ivlen => setMode 1 ivlen
  | .setmodePcbc ivlen => setMode 2 ivlen
  | .setmodeCfb ivlen => setMode 3 ivlen
  | .setmodeOfb ivlen => setMode 4 ivlen
  | .setmodeCtr ivlen => setMode 5 ivlen
  | .setmodeCtrle ivlen => setMode 6 ivlen
  | .setmodeBad ivlen => setMode 7 ivlen
  | .enc len => crypt .encrypt len
  | .dec len => crypt .decrypt len

/-- Every command is its effect behind the fault check. -/
theorem exec_eq_effect (i : Instr) (s : State) : exec i s = unlessFault (effect i) s := by cases i <;> rfl

/-- The state change a command word makes outside the fault state. -/
def wordEffect (w : Word) : State → State :=
  match decode w with
  | .ok i => effect i
  | .error _ => fail .eCmd

theorem command_eq_effect (w : Word) (s : State) : command w s = unlessFault (wordEffect w) s := by
  unfold command wordEffect
  cases decode w with
  | ok i => exact exec_eq_effect i s
  | error e => rfl

theorem command_next (w : Word) (s : State) :
    command w s = .next (if s.fault then s.setResult .eFault else wordEffect w s) := by
  rw [command_eq_effect, unlessFault_eq]; rfl

theorem command_of_noFault {w : Word} {s : State} (h : s.fault = false) : command w s = .next (wordEffect w s) := by
  rw [command_eq_effect, unlessFault_of_noFault h]

theorem command_of_fault {w : Word} {s : State} (h : s.fault = true) : command w s = .next (s.setResult .eFault) := by
  rw [command_eq_effect, unlessFault_of_fault h]

theorem exec_of_noFault {i : Instr} {s : State} (h : s.fault = false) : exec i s = .next (effect i s) := by
  rw [exec_eq_effect, unlessFault_of_noFault h]

theorem exec_of_fault {i : Instr} {s : State} (h : s.fault = true) : exec i s = .next (s.setResult .eFault) := by
  rw [exec_eq_effect, unlessFault_of_fault h]

/-! ## SET_MODE -/

/-- All that SET_MODE can do: fail with a code, clear for ECB, or arm from IV_IN. -/
theorem setMode_cases (m : BitVec 3) (ivlen : Nat) (s : State) :
    (∃ e, e ≠ .ok ∧ e ≠ .eFault ∧ setModeError m ivlen s = some e ∧ setMode m ivlen s = s.setResult e) ∨
    (m = 0 ∧ setMode m ivlen s = armEcb s) ∨
    (m ≠ 0 ∧ m ≠ 7 ∧ ¬(m = 6 ∧ s.build.ctrle = .reject) ∧ ivlen = s.bs ∧ setMode m ivlen s = armIv m s) := by
  unfold setMode setModeError fail
  split_ifs with h1 h2 h3 h4 <;> simp_all

theorem armEcb_eq (s : State) :
    armEcb s = { s with iv := zeroBlock s.bs, ctr := zeroBlock s.bs, mode := 0, result := 0 } := rfl

theorem armIv_eq (m : BitVec 3) (s : State) :
    armIv m s = { s with iv := s.ivIn.take s.bs, ctr := zeroBlock s.bs, mode := m, result := 0 } := rfl

/-! ## The checks of ENCRYPT and DECRYPT -/

/-- All that a block command can do: fail with a code, enter the fault state, or run its blocks. -/
theorem crypt_cases (d : Dir) (len : Nat) (s : State) :
    (∃ e, e ≠ .ok ∧ e ≠ .eFault ∧ cryptError d len s = some e ∧ crypt d len s = s.setResult e) ∨
    (cryptError d len s = none ∧ route s.build.ctrle s.mode = none ∧ crypt d len s = enterFault s) ∨
    (∃ p, cryptError d len s = none ∧ route s.build.ctrle s.mode = some p ∧
      crypt d len s = (runBlocks d p (len / s.bs) 0 s).setResult .ok) := by
  unfold crypt
  cases he : cryptError d len s with
  | some e =>
    refine .inl ⟨e, ?_, ?_, rfl, rfl⟩ <;>
    · rintro rfl
      unfold cryptError at he
      split_ifs at he <;> simp at he
  | none =>
    cases hr : route s.build.ctrle s.mode with
    | none => exact .inr (.inl ⟨rfl, rfl, rfl⟩)
    | some p => exact .inr (.inr ⟨p, rfl, rfl, rfl⟩)

/-- The checks pass exactly when the capability, the length and the range do. -/
theorem cryptError_eq_none {d : Dir} {len : Nat} {s : State} :
    cryptError d len s = none ↔ s.capable d = true ∧ len % s.bs = 0 ∧ len ≤ s.build.nbuf := by
  unfold cryptError
  split_ifs <;> simp_all

/-- With its checks passed and a legal MODE, a block command runs its blocks. -/
theorem crypt_runs {d : Dir} {len : Nat} {s : State} {p : Route} (hc : s.capable d = true) (hl : len % s.bs = 0)
    (hn : len ≤ s.build.nbuf) (hp : route s.build.ctrle s.mode = some p) :
    crypt d len s = (runBlocks d p (len / s.bs) 0 s).setResult .ok := by
  unfold crypt
  rw [cryptError_eq_none.mpr ⟨hc, hl, hn⟩, hp]

/-! ## The block loop -/

/-- What one block step keeps, the whole loop keeps. -/
theorem runBlocks_keeps {α : Sort _} (f : State → α) (d : Dir) (p : Route)
    (h : ∀ k s, f (blockStep d p k s) = f s) (n k : Nat) (s : State) : f (runBlocks d p n k s) = f s := by
  induction n generalizing k s with
  | zero => rfl
  | succ n ih => exact (ih _ _).trans (h _ _)

variable (d : Dir) (p : Route) (n k : Nat) (s : State)

@[simp] theorem runBlocks_build : (runBlocks d p n k s).build = s.build := runBlocks_keeps _ d p (fun _ _ => rfl) _ _ _
@[simp] theorem runBlocks_bs : (runBlocks d p n k s).bs = s.bs := runBlocks_keeps _ d p (fun _ _ => rfl) _ _ _
@[simp] theorem runBlocks_cipherId : (runBlocks d p n k s).cipherId = s.cipherId := runBlocks_keeps _ d p (fun _ _ => rfl) _ _ _
@[simp] theorem runBlocks_keyBytes : (runBlocks d p n k s).keyBytes = s.keyBytes := runBlocks_keeps _ d p (fun _ _ => rfl) _ _ _
@[simp] theorem runBlocks_canEnc : (runBlocks d p n k s).canEnc = s.canEnc := runBlocks_keeps _ d p (fun _ _ => rfl) _ _ _
@[simp] theorem runBlocks_canDec : (runBlocks d p n k s).canDec = s.canDec := runBlocks_keeps _ d p (fun _ _ => rfl) _ _ _
@[simp] theorem runBlocks_adapter : (runBlocks d p n k s).adapter = s.adapter := runBlocks_keeps _ d p (fun _ _ => rfl) _ _ _
@[simp] theorem runBlocks_schedule : (runBlocks d p n k s).schedule = s.schedule := runBlocks_keeps _ d p (fun _ _ => rfl) _ _ _
@[simp] theorem runBlocks_mode : (runBlocks d p n k s).mode = s.mode := runBlocks_keeps _ d p (fun _ _ => rfl) _ _ _
@[simp] theorem runBlocks_result : (runBlocks d p n k s).result = s.result := runBlocks_keeps _ d p (fun _ _ => rfl) _ _ _
@[simp] theorem runBlocks_fault : (runBlocks d p n k s).fault = s.fault := runBlocks_keeps _ d p (fun _ _ => rfl) _ _ _
@[simp] theorem runBlocks_ivIn : (runBlocks d p n k s).ivIn = s.ivIn := runBlocks_keeps _ d p (fun _ _ => rfl) _ _ _
@[simp] theorem runBlocks_draw : (runBlocks d p n k s).draw = s.draw := runBlocks_keeps _ d p (fun _ _ => rfl) _ _ _
@[simp] theorem runBlocks_port : (runBlocks d p n k s).port = s.port := runBlocks_keeps _ d p (fun _ _ => rfl) _ _ _
@[simp] theorem runBlocks_answer : (runBlocks d p n k s).answer = s.answer := runBlocks_keeps _ d p (fun _ _ => rfl) _ _ _

omit d p n k in
/-- Two states that agree but for IV, CTR and BUF. -/
theorem State.eq_of_agree {t : State}
    (h : ({ t with iv := [], ctr := [], buf := [] } : State) = { s with iv := [], ctr := [], buf := [] }) :
    t = { s with iv := t.iv, ctr := t.ctr, buf := t.buf } := by
  cases s; cases t
  simp only [State.mk.injEq, true_and] at h ⊢
  exact h

/-- A run of blocks changes IV, CTR and BUF only. -/
theorem runBlocks_frame : runBlocks d p n k s =
    { s with iv := (runBlocks d p n k s).iv, ctr := (runBlocks d p n k s).ctr, buf := (runBlocks d p n k s).buf } :=
  State.eq_of_agree s
    (runBlocks_keeps (fun t => ({ t with iv := [], ctr := [], buf := [] } : State)) d p (fun _ _ => rfl) n k s)

end Sys2Proof.Machine
end

