-- ==== Sys2Proof/Laws/Blocks.lean ====
section
/-! SUPPORT. The lengths of the datapath's results, and what one block step and a run of blocks do to BUF and to the
chaining state. -/

namespace Sys2Proof.Machine

/-! ## Lengths -/

@[simp] theorem xorBlock_length (a b : Block) : (xorBlock a b).length = min a.length b.length := by simp [xorBlock]

theorem incBeCarry_length (c : Block) : (incBeCarry c).1.length = c.length := by
  induction c with
  | nil => rfl
  | cons b rest ih => simp only [incBeCarry]; split <;> simp [ih]

@[simp] theorem incBe_length (c : Block) : (incBe c).length = c.length := incBeCarry_length c

@[simp] theorem incLe_length (c : Block) : (incLe c).length = c.length := by
  induction c with
  | nil => rfl
  | cons b rest ih => simp only [incLe]; split <;> simp [ih]

@[simp] theorem ofFn_length (n : Nat) (f : Fin n → Byte) : (ofFn n f).length = n := by simp [ofFn]

/-- An adapter call gives a BS-byte block (42_datapath.md R186). -/
@[simp] theorem State.enc_length (s : State) (x : Block) : (s.enc x).length = s.bs := by
  unfold State.enc adapterEnc
  split
  · simp [toyEnc]
  · split <;> simp

@[simp] theorem State.dec_length (s : State) (x : Block) : (s.dec x).length = s.bs := by
  unfold State.dec adapterDec
  split
  · simp [toyDec]
  · split <;> simp

/-- A chaining state of n-byte registers (10_state.md R47). -/
def Chain.sized (n : Nat) (c : Chain) : Prop := c.iv.length = n ∧ c.ctr.length = n

/-- Every block rule gives an n-byte block and keeps the registers at n bytes. -/
theorem encBlock_sized {n : Nat} {enc : Block → Block} (he : ∀ x, (enc x).length = n) (p : Route) {c : Chain}
    {x : Block} (hc : c.sized n) (hx : x.length = n) :
    (encBlock p enc c x).1.length = n ∧ (encBlock p enc c x).2.sized n := by
  obtain ⟨h1, h2⟩ := hc
  cases p <;>
    simp [encBlock, encEcb, encCbc, encPcbc, encCfb, encOfb, encCtr, encCtrLe, encEcbFallback, Chain.sized, he, hx, h1, h2]

theorem decBlock_sized {n : Nat} {enc dec : Block → Block} (he : ∀ x, (enc x).length = n) (hd : ∀ x, (dec x).length = n)
    (p : Route) {c : Chain} {x : Block} (hc : c.sized n) (hx : x.length = n) :
    (decBlock p enc dec c x).1.length = n ∧ (decBlock p enc dec c x).2.sized n := by
  obtain ⟨h1, h2⟩ := hc
  cases p <;>
    simp [decBlock, decEcb, decCbc, decPcbc, decCfb, decOfb, decCtr, decCtrLe, decEcbFallback, Chain.sized, he, hd, hx, h1, h2]

theorem State.block_sized (s : State) (d : Dir) (p : Route) {c : Chain} {x : Block} (hc : c.sized s.bs)
    (hx : x.length = s.bs) : (s.block d p c x).1.length = s.bs ∧ (s.block d p c x).2.sized s.bs := by
  cases d
  · exact encBlock_sized s.enc_length p hc hx
  · exact decBlock_sized s.enc_length s.dec_length p hc hx

/-! ## One block step -/

variable (d : Dir) (p : Route)

/-- The block rule's result at block k. -/
def State.blockAt (s : State) (d : Dir) (p : Route) (k : Nat) : Block × Chain :=
  s.block d p s.chain (s.memRead (k * s.bs) s.bs)

theorem blockStep_eq (k : Nat) (s : State) :
    blockStep d p k s = (s.setChain (s.blockAt d p k).2).memWrite (k * s.bs) (s.blockAt d p k).1 := rfl

theorem State.blockAt_sized {s : State} (h : s.chain.sized s.bs) (k : Nat) :
    (s.blockAt d p k).1.length = s.bs ∧ (s.blockAt d p k).2.sized s.bs :=
  s.block_sized d p h (by simp)

@[simp] theorem blockStep_chain (k : Nat) (s : State) : (blockStep d p k s).chain = (s.blockAt d p k).2 := rfl

theorem blockStep_sized {s : State} (h : s.chain.sized s.bs) (k : Nat) : (blockStep d p k s).chain.sized s.bs :=
  (s.blockAt_sized d p h k).2

/-- The step's block, and nothing else, is replaced in BUF (20_memory.md R68). -/
theorem blockStep_bufByte {s : State} (h : s.chain.sized s.bs) (k off : Nat) :
    (blockStep d p k s).bufByte off =
      if k * s.bs ≤ off ∧ off < k * s.bs + s.bs then (s.blockAt d p k).1.getD (off - k * s.bs) 0 else s.bufByte off := by
  rw [blockStep_eq, State.bufByte_memWrite, (s.blockAt_sized d p h k).1]; rfl

theorem blockStep_memRead_same {s : State} (h : s.chain.sized s.bs) (k : Nat) :
    (blockStep d p k s).memRead (k * s.bs) s.bs = (s.blockAt d p k).1 := by
  have := State.memRead_memWrite_same (s.setChain (s.blockAt d p k).2) (k * s.bs) (s.blockAt d p k).1
  rwa [(s.blockAt_sized d p h k).1] at this

theorem blockStep_memRead_apart {s : State} (h : s.chain.sized s.bs) (k o n : Nat)
    (ho : o + n ≤ k * s.bs ∨ k * s.bs + s.bs ≤ o) : (blockStep d p k s).memRead o n = s.memRead o n := by
  apply State.memRead_congr
  intro i hi
  rw [blockStep_bufByte d p h, if_neg (by omega)]

@[simp] theorem blockStep_block (k : Nat) (s : State) (e : Dir) (q : Route) :
    (blockStep d p k s).block e q = s.block e q := rfl

/-! ## A run of blocks -/

theorem runBlocks_sized (n k : Nat) {s : State} (h : s.chain.sized s.bs) : (runBlocks d p n k s).chain.sized s.bs := by
  induction n generalizing k s with
  | zero => exact h
  | succ n ih => exact ih (k + 1) (s := blockStep d p k s) (blockStep_sized d p h k)

/-- Bytes outside the blocks k .. k+n-1 keep their values. -/
theorem runBlocks_bufByte_outside (n k : Nat) {s : State} (h : s.chain.sized s.bs) (off : Nat)
    (ho : off < k * s.bs ∨ (k + n) * s.bs ≤ off) : (runBlocks d p n k s).bufByte off = s.bufByte off := by
  induction n generalizing k s with
  | zero => rfl
  | succ n ih =>
    have e : (k + 1 + n) * s.bs = (k + (n + 1)) * s.bs := by ring_nf
    have e1 : (k + 1) * s.bs = k * s.bs + s.bs := by ring
    have e2 : (k + (n + 1)) * s.bs = k * s.bs + n * s.bs + s.bs := by ring
    rw [runBlocks, ih (k + 1) (s := blockStep d p k s) (blockStep_sized d p h k)
      (by simp only [show (blockStep d p k s).bs = s.bs from rfl]; omega), blockStep_bufByte d p h, if_neg]
    have := Nat.zero_le (n * s.bs)
    omega

theorem runBlocks_memRead_outside (n k : Nat) {s : State} (h : s.chain.sized s.bs) (o m : Nat)
    (ho : o + m ≤ k * s.bs ∨ (k + n) * s.bs ≤ o) : (runBlocks d p n k s).memRead o m = s.memRead o m := by
  apply State.memRead_congr
  intro i hi
  exact runBlocks_bufByte_outside d p n k h _ (by omega)

/-- BUF's contents keep their canonical form. -/
theorem runBlocks_wf (n k : Nat) {s : State} (h : s.buf.wf) : (runBlocks d p n k s).buf.wf := by
  induction n generalizing k s with
  | zero => exact h
  | succ n ih => exact ih (k + 1) (s := blockStep d p k s) (Memory.writeBytes_wf _ _ h)

/-- Only bytes below the last block's end are written. -/
theorem runBlocks_mem (n k : Nat) {s : State} (h : s.chain.sized s.bs) {c : Host.Cell}
    (hc : c ∈ (runBlocks d p n k s).buf) : c.1 < (k + n) * s.bs ∨ c ∈ s.buf := by
  induction n generalizing k s with
  | zero => exact .inr hc
  | succ n ih =>
    have e : (k + 1 + n) * s.bs = (k + (n + 1)) * s.bs := by ring_nf
    have e2 : (k + (n + 1)) * s.bs = k * s.bs + n * s.bs + s.bs := by ring
    rcases ih (k + 1) (s := blockStep d p k s) (blockStep_sized d p h k) hc with h' | h'
    · exact .inl (by simp only [show (blockStep d p k s).bs = s.bs from rfl] at h'; omega)
    · rcases Memory.mem_writeBytes (show c ∈ s.buf.writeBytes (k * s.bs) (s.blockAt d p k).1 from h') with h' | h'
      · rw [(s.blockAt_sized d p h k).1] at h'
        exact .inl (by have := Nat.zero_le (n * s.bs); omega)
      · exact .inr h'

/-- What one block of a row does to CTR (42_datapath.md R190): the counter modes count it on, the others keep it. -/
def Route.count : Route → Block → Block
  | .ecb => id
  | .cbc => id
  | .pcbc => id
  | .cfb => id
  | .ofb => id
  | .ctr => incBe
  | .ctrLe => incLe
  | .ecbFallback => id

theorem State.block_ctr (s : State) (c : Chain) (x : Block) : (s.block d p c x).2.ctr = p.count c.ctr := by
  cases d <;> cases p <;> rfl

/-- A run of n blocks counts CTR on n times (10_state.md R48). -/
theorem runBlocks_ctr (n k : Nat) (s : State) : (runBlocks d p n k s).ctr = p.count^[n] s.ctr := by
  induction n generalizing k s with
  | zero => rfl
  | succ n ih =>
    rw [runBlocks, ih, Function.iterate_succ_apply]
    exact congrArg _ (s.block_ctr d p s.chain _)

end Sys2Proof.Machine
end

