-- ==== Sys2Proof/Laws/Decode.lean ====
section
/-! SUPPORT. The arithmetic of the command word's fields. -/

namespace Sys2Proof

theorem bits_eq (w : Word) (lo len : Nat) : bits w lo len = w.toNat / 2 ^ lo % 2 ^ len := rfl

theorem bits_lt (w : Word) (lo len : Nat) : bits w lo len < 2 ^ len := Nat.mod_lt _ (by positivity)

/-! ## The decoder, by OP -/

theorem decode_op1 {w : Word} (h : bits w 0 4 = 1) : decode w =
    if bits w 16 16 ≠ 0 ∨ bits w 7 1 ≠ 0 then .error .reservedBits
    else .ok (setmodeRow (bits w 4 3) (bits w 8 8)) := by
  simp only [decode, h]

theorem decode_op2 {w : Word} (h : bits w 0 4 = 2) : decode w =
    if bits w 4 12 ≠ 0 then .error .reservedBits else .ok (.enc (bits w 16 16)) := by
  simp only [decode, h]

theorem decode_op3 {w : Word} (h : bits w 0 4 = 3) : decode w =
    if bits w 4 12 ≠ 0 then .error .reservedBits else .ok (.dec (bits w 16 16)) := by
  simp only [decode, h]

/-- All that the decoder can accept. -/
theorem decode_ok {w : Word} {i : Instr} (h : decode w = .ok i) :
    (bits w 0 4 = 1 ∧ bits w 16 16 = 0 ∧ bits w 7 1 = 0 ∧ i = setmodeRow (bits w 4 3) (bits w 8 8)) ∨
    (bits w 0 4 = 2 ∧ bits w 4 12 = 0 ∧ i = .enc (bits w 16 16)) ∨
    (bits w 0 4 = 3 ∧ bits w 4 12 = 0 ∧ i = .dec (bits w 16 16)) := by
  unfold decode at h
  split at h <;> first | (split_ifs at h with c; cases h; first | omega | (simp_all)) | cases h

/-! ## Words as numbers -/

/-- The number of a word of format M whose operands fit (30_encoding.md R92). -/
theorem formatM_toNat {mode ivlen : Nat} (hm : mode < 8) (hl : ivlen < 256) :
    (formatM mode ivlen).toNat = 1 + mode * 16 + ivlen * 256 := by
  simp only [formatM, BitVec.toNat_ofNat]; omega

/-- The number of a word of format D whose operands fit (30_encoding.md R93). -/
theorem formatD_toNat {op len : Nat} (ho : op < 16) (hl : len < 65536) : (formatD op len).toNat = op + len * 65536 := by
  simp only [formatD, BitVec.toNat_ofNat]; omega

/-- The bits that format M fixes (30_encoding.md R95). -/
theorem and_maskM (w : Word) :
    (w &&& 0xFFFF00FF).toNat = w.toNat % 256 + w.toNat / 65536 * 65536 := by
  have h : w &&& 0xFFFF00FF = (w.extractLsb' 16 16 ++ (0#8 ++ w.extractLsb' 0 8)).cast (by decide) := by
    apply BitVec.eq_of_getLsbD_eq
    intro i hi
    simp only [BitVec.getLsbD_and, BitVec.getLsbD_cast, BitVec.getLsbD_append, BitVec.getLsbD_extractLsb',
      BitVec.getLsbD_zero]
    interval_cases i <;> simp
  have hw := w.isLt
  rw [h]
  simp only [BitVec.toNat_cast, BitVec.toNat_append, BitVec.extractLsb'_toNat, BitVec.toNat_ofNat, Nat.shiftRight_zero]
  rw [Nat.zero_mod, Nat.zero_shiftLeft, Nat.zero_or, ← Nat.shiftLeft_add_eq_or_of_lt (by omega)]
  simp only [Nat.shiftLeft_eq, Nat.shiftRight_eq_div_pow]
  omega

/-- The bits that format D fixes (30_encoding.md R95). -/
theorem and_maskD (w : Word) : (w &&& 0x0000FFFF).toNat = w.toNat % 65536 := by
  rw [BitVec.toNat_and]
  exact Nat.and_two_pow_sub_one_eq_mod w.toNat 16

end Sys2Proof
end

