-- ==== Sys2Proof/Laws/Port.lean ====
section
/-! SUPPORT. What one host access and one turn of the port can do, said once. -/

namespace Sys2Proof.Machine

/-! ## The address map -/

/-- The register map, line by line (10_state.md R36). -/
theorem region_cases (nbuf a : Nat) :
    (a < 0x004 ∧ region nbuf a = .reg .cmd) ∨
    (∃ r, r ≠ .cmd ∧ 0x004 ≤ a ∧ a ≤ 0x01B ∧ region nbuf a = .reg r) ∨
    (0x040 ≤ a ∧ a < 0x050 ∧ region nbuf a = .ivIn (a - 0x040)) ∨
    (0x050 ≤ a ∧ a < 0x060 ∧ region nbuf a = .ivView (a - 0x050)) ∨
    (0x060 ≤ a ∧ a < 0x070 ∧ region nbuf a = .ctrView (a - 0x060)) ∨
    (0x100 ≤ a ∧ a < 0x100 + nbuf ∧ region nbuf a = .buf (a - 0x100)) ∨
    (((0x01C ≤ a ∧ a < 0x040) ∨ (0x070 ≤ a ∧ a < 0x100) ∨ 0x100 + nbuf ≤ a) ∧ region nbuf a = .reserved) := by
  by_cases h1 : a < 0x01C
  · by_cases h0 : a < 0x004
    · exact .inl ⟨h0, by simp [region, h0]⟩
    · have h : ∃ r, r ≠ Reg.cmd ∧ region nbuf a = .reg r := by
        unfold region
        rw [if_neg h0]
        repeat' split
        all_goals first
          | omega
          | exact ⟨_, Reg.noConfusion, rfl⟩
      obtain ⟨r, hr, e⟩ := h
      exact .inr (.inl ⟨r, hr, by omega, by omega, e⟩)
  · have e : region nbuf a =
        if a < 0x040 then .reserved
        else if a < 0x050 then .ivIn (a - 0x040)
        else if a < 0x060 then .ivView (a - 0x050)
        else if a < 0x070 then .ctrView (a - 0x060)
        else if a < 0x100 then .reserved
        else if a < 0x100 + nbuf then .buf (a - 0x100)
        else .reserved := by
      unfold region
      rw [if_neg (by omega), if_neg (by omega), if_neg (by omega), if_neg (by omega), if_neg (by omega),
        if_neg (by omega), if_neg h1]
    rw [e]
    repeat' split
    · exact .inr (.inr (.inr (.inr (.inr (.inr ⟨by omega, rfl⟩)))))
    · exact .inr (.inr (.inl ⟨by omega, by omega, rfl⟩))
    · exact .inr (.inr (.inr (.inl ⟨by omega, by omega, rfl⟩)))
    · exact .inr (.inr (.inr (.inr (.inl ⟨by omega, by omega, rfl⟩))))
    · exact .inr (.inr (.inr (.inr (.inr (.inr ⟨by omega, rfl⟩)))))
    · exact .inr (.inr (.inr (.inr (.inr (.inl ⟨by omega, by omega, rfl⟩)))))
    · exact .inr (.inr (.inr (.inr (.inr (.inr ⟨by omega, rfl⟩)))))

theorem region_cmd_iff {nbuf a : Nat} : region nbuf a = .reg .cmd ↔ a < 4 := by
  rcases region_cases nbuf a with ⟨h, e⟩ | ⟨r, hr, h1, h2, e⟩ | ⟨h1, h2, e⟩ | ⟨h1, h2, e⟩ | ⟨h1, h2, e⟩ | ⟨h1, h2, e⟩ | ⟨h, e⟩ <;>
    rw [e] <;> simp only [Region.reg.injEq, reduceCtorEq, true_iff, false_iff] <;> first | omega | skip
  simp only [hr, false_iff]; omega

theorem region_reserved_iff {nbuf a : Nat} : region nbuf a = .reserved ↔
    (0x01C ≤ a ∧ a < 0x040) ∨ (0x070 ≤ a ∧ a < 0x100) ∨ 0x100 + nbuf ≤ a := by
  rcases region_cases nbuf a with ⟨h, e⟩ | ⟨r, hr, h1, h2, e⟩ | ⟨h1, h2, e⟩ | ⟨h1, h2, e⟩ | ⟨h1, h2, e⟩ | ⟨h1, h2, e⟩ | ⟨h, e⟩ <;>
    rw [e] <;> simp only [reduceCtorEq, true_iff, false_iff] <;> omega

theorem region_wordOnly_iff {nbuf a : Nat} : (region nbuf a).wordOnly = true ↔ a ≤ 0x01B := by
  rcases region_cases nbuf a with ⟨h, e⟩ | ⟨r, hr, h1, h2, e⟩ | ⟨h1, h2, e⟩ | ⟨h1, h2, e⟩ | ⟨h1, h2, e⟩ | ⟨h1, h2, e⟩ | ⟨h, e⟩ <;>
    rw [e] <;> simp only [Region.wordOnly, Bool.false_eq_true, true_iff, false_iff] <;> omega

theorem region_readOnly_iff {nbuf a : Nat} : (region nbuf a).readOnly = true ↔
    (0x004 ≤ a ∧ a ≤ 0x01B) ∨ (0x050 ≤ a ∧ a ≤ 0x06F) := by
  rcases region_cases nbuf a with ⟨h, e⟩ | ⟨r, hr, h1, h2, e⟩ | ⟨h1, h2, e⟩ | ⟨h1, h2, e⟩ | ⟨h1, h2, e⟩ | ⟨h1, h2, e⟩ | ⟨h, e⟩ <;>
    rw [e]
  · simp only [Region.readOnly, Bool.false_eq_true, false_iff]; omega
  · have : (Region.reg r).readOnly = true := by cases r <;> first | rfl | exact absurd rfl hr
    simp only [this, true_iff]; omega
  all_goals simp only [Region.readOnly, Bool.false_eq_true, true_iff, false_iff]; omega

theorem region_ivIn {nbuf i : Nat} (h : i < 16) : region nbuf (0x040 + i) = .ivIn i := by
  rcases region_cases nbuf (0x040 + i) with ⟨g, -⟩ | ⟨_, -, g, g', -⟩ | ⟨-, -, e⟩ | ⟨g, -, -⟩ | ⟨g, -, -⟩ | ⟨g, -, -⟩ | ⟨g, -⟩ <;>
    first | omega | rw [e, Nat.add_sub_cancel_left]

theorem region_ivView {nbuf i : Nat} (h : i < 16) : region nbuf (0x050 + i) = .ivView i := by
  rcases region_cases nbuf (0x050 + i) with ⟨g, -⟩ | ⟨_, -, g, g', -⟩ | ⟨-, g, -⟩ | ⟨-, -, e⟩ | ⟨g, -, -⟩ | ⟨g, -, -⟩ | ⟨g, -⟩ <;>
    first | omega | rw [e, Nat.add_sub_cancel_left]

theorem region_ctrView {nbuf i : Nat} (h : i < 16) : region nbuf (0x060 + i) = .ctrView i := by
  rcases region_cases nbuf (0x060 + i) with ⟨g, -⟩ | ⟨_, -, g, g', -⟩ | ⟨-, g, -⟩ | ⟨-, g, -⟩ | ⟨-, -, e⟩ | ⟨g, -, -⟩ | ⟨g, -⟩ <;>
    first | omega | rw [e, Nat.add_sub_cancel_left]

theorem region_buf {nbuf off : Nat} (h : off < nbuf) : region nbuf (0x100 + off) = .buf off := by
  rcases region_cases nbuf (0x100 + off) with ⟨g, -⟩ | ⟨_, -, g, g', -⟩ | ⟨-, g, -⟩ | ⟨-, g, -⟩ | ⟨-, g, -⟩ | ⟨-, -, e⟩ | ⟨g, -⟩ <;>
    first | omega | rw [e, Nat.add_sub_cancel_left]

theorem region_eq_buf {nbuf a off : Nat} (h : region nbuf a = .buf off) : a = 0x100 + off ∧ off < nbuf := by
  rcases region_cases nbuf a with ⟨-, e⟩ | ⟨_, -, -, -, e⟩ | ⟨-, -, e⟩ | ⟨-, -, e⟩ | ⟨-, -, e⟩ | ⟨h1, h2, e⟩ | ⟨-, e⟩ <;>
    rw [e] at h <;> simp only [reduceCtorEq, Region.buf.injEq] at h
  omega

/-! ## The checks -/

/-- No bus error, said of the address (20_memory.md R66). -/
theorem busError_eq_none {nbuf : Nat} {a : Access} : busError nbuf a = none ↔
    a.addr.toNat % a.width.bytes = 0 ∧
    ¬((0x01C ≤ a.addr.toNat ∧ a.addr.toNat < 0x040) ∨ (0x070 ≤ a.addr.toNat ∧ a.addr.toNat < 0x100) ∨
      0x100 + nbuf ≤ a.addr.toNat) ∧
    ¬(a.addr.toNat ≤ 0x01B ∧ a.width ≠ .w32) ∧
    ¬(a.isWrite = true ∧
      ((0x004 ≤ a.addr.toNat ∧ a.addr.toNat ≤ 0x01B) ∨ (0x050 ≤ a.addr.toNat ∧ a.addr.toNat ≤ 0x06F))) := by
  rw [← region_reserved_iff (nbuf := nbuf), ← region_readOnly_iff (nbuf := nbuf), ← region_wordOnly_iff (nbuf := nbuf)]
  unfold busError
  split_ifs <;> simp_all

/-- A write that passes the checks and names CMD is the 32-bit write at offset 0 (20_memory.md R62). -/
theorem cmd_write {nbuf : Nat} {addr : Addr} {w : Width} {v : Word} (h : busError nbuf (.write addr w v) = none)
    (hr : region nbuf addr.toNat = .reg .cmd) : addr = 0x000 ∧ w = .w32 := by
  rw [busError_eq_none] at h
  rw [region_cmd_iff] at hr
  simp only [Access.addr, Access.width] at h
  obtain ⟨h1, -, h3, -⟩ := h
  have hw : w = .w32 := by by_contra hw; exact h3 ⟨by omega, hw⟩
  subst hw
  simp only [Width.bytes] at h1
  exact ⟨by apply BitVec.eq_of_toNat_eq; simp; omega, rfl⟩

/-! ## Stores -/

/-- What one stored byte can change. -/
theorem storeByte_cases (a : Nat) (v : Byte) (s : State) :
    storeByte a v s = s ∨ (∃ i, storeByte a v s = s.setIvIn (s.ivIn.set i v)) ∨
    (∃ off, off < s.build.nbuf ∧ storeByte a v s = s.setBuf (s.buf.write off v)) := by
  unfold storeByte
  split
  · split
    · exact .inr (.inl ⟨_, rfl⟩)
    · exact .inl rfl
  · rename_i off h
    exact .inr (.inr ⟨off, (region_eq_buf h).2, rfl⟩)
  all_goals exact .inl rfl

/-- What every stored byte keeps, a whole store keeps. -/
theorem storeLanes_induct (P : State → Prop) (h : ∀ a v s, P s → P (storeByte a v s)) (a : Nat) (v : Word) (n j : Nat)
    (s : State) (hs : P s) : P (storeLanes a v n j s) := by
  induction n generalizing j s with
  | zero => exact hs
  | succ n ih => exact ih _ _ (h _ _ _ hs)

/-- A store changes IV_IN and BUF only. -/
theorem storeLanes_frame (a : Nat) (v : Word) (n j : Nat) (s : State) :
    storeLanes a v n j s = { s with ivIn := (storeLanes a v n j s).ivIn, buf := (storeLanes a v n j s).buf } := by
  refine storeLanes_induct (fun t => t = { s with ivIn := t.ivIn, buf := t.buf }) ?_ a v n j s rfl
  intro a v t ht
  rcases storeByte_cases a v t with h | ⟨i, h⟩ | ⟨off, -, h⟩
  · rw [h]; exact ht
  · rw [h]; simp only [State.setIvIn]; conv_lhs => rw [ht]
  · rw [h]; simp only [State.setBuf]; conv_lhs => rw [ht]

/-! ## One access -/

/-- All that a host access can do (20_memory.md R66): an error answer, a read's answer, a command, or a store. -/
theorem hostAccess_cases (a : Access) (s : State) :
    ((busError s.build.nbuf a).isSome = true ∧ hostAccess a s = .next (s.setAnswer .busError)) ∨
    (∃ addr w, a = .read addr w ∧ busError s.build.nbuf a = none ∧
      hostAccess a s = .next (s.setAnswer { error := false, data := s.readWord addr.toNat w })) ∨
    (∃ v, a = .write 0x000 .w32 v ∧
      hostAccess a s = .next ((if s.fault then s.setResult .eFault else wordEffect v s).setAnswer .written)) ∨
    (∃ addr w v, a = .write addr w v ∧ busError s.build.nbuf a = none ∧ 4 ≤ addr.toNat ∧
      hostAccess a s = .next ((storeLanes addr.toNat v w.bytes 0 s).setAnswer .written)) := by
  unfold hostAccess
  cases hb : busError s.build.nbuf a with
  | some c => exact .inl ⟨rfl, rfl⟩
  | none =>
    cases a with
    | read addr w => exact .inr (.inl ⟨addr, w, rfl, rfl, rfl⟩)
    | write addr w v =>
      by_cases hr : region s.build.nbuf addr.toNat = .reg .cmd
      · obtain ⟨rfl, rfl⟩ := cmd_write hb hr
        refine .inr (.inr (.inl ⟨v, rfl, ?_⟩))
        simp only [hr, if_true, command_next, answered]
      · refine .inr (.inr (.inr ⟨addr, w, v, rfl, rfl, ?_, ?_⟩))
        · rw [region_cmd_iff] at hr; omega
        · simp only [hr, if_false]

/-- Every access completes. -/
theorem hostAccess_next (a : Access) (s : State) : ∃ t, hostAccess a s = .next t := by
  rcases hostAccess_cases a s with ⟨-, h⟩ | ⟨_, _, -, -, h⟩ | ⟨_, -, h⟩ | ⟨_, _, _, -, -, -, h⟩ <;> exact ⟨_, h⟩

/-- A CMD write is the command and its acknowledgement (10_state.md R37). -/
theorem hostAccess_command (v : Word) (s : State) :
    hostAccess (.write 0x000 .w32 v) s = answered .written (command v s) := by
  have hr : region s.build.nbuf 0 = .reg .cmd := region_cmd_iff.mpr (by decide)
  have hb : busError s.build.nbuf (.write 0x000 .w32 v) = none := by
    rw [busError_eq_none]; simp [Access.addr, Access.width, Access.isWrite, Width.bytes]
  unfold hostAccess
  rw [hb]
  simp [hr]

/-! ## What waits behind an access does not matter to it -/

theorem runBlocks_setPort (d : Dir) (p : Route) (n k : Nat) (s : State) (q : List Event) :
    runBlocks d p n k (s.setPort q) = (runBlocks d p n k s).setPort q := by
  induction n generalizing k s with
  | zero => rfl
  | succ n ih => exact ih (k + 1) (blockStep d p k s)

theorem crypt_setPort (d : Dir) (len : Nat) (s : State) (q : List Event) :
    crypt d len (s.setPort q) = (crypt d len s).setPort q := by
  have h1 : cryptError d len (s.setPort q) = cryptError d len s := by cases d <;> rfl
  have h2 : route (s.setPort q).build.ctrle (s.setPort q).mode = route s.build.ctrle s.mode := rfl
  unfold crypt
  rw [h1, h2]
  cases cryptError d len s with
  | some e => rfl
  | none =>
    cases route s.build.ctrle s.mode with
    | none => rfl
    | some p =>
      show (runBlocks d p (len / s.bs) 0 (s.setPort q)).setResult .ok = _
      rw [runBlocks_setPort]; rfl

theorem setMode_setPort (m : BitVec 3) (ivlen : Nat) (s : State) (q : List Event) :
    setMode m ivlen (s.setPort q) = (setMode m ivlen s).setPort q := by
  have h : setModeError m ivlen (s.setPort q) = setModeError m ivlen s := rfl
  unfold setMode
  rw [h]
  cases setModeError m ivlen s with
  | some e => rfl
  | none => show (if m = 0 then _ else _) = State.setPort (if m = 0 then _ else _) q; split <;> rfl

theorem effect_setPort (i : Instr) (s : State) (q : List Event) : effect i (s.setPort q) = (effect i s).setPort q := by
  cases i with
  | setmodeEcb ivlen => exact setMode_setPort 0 ivlen s q
  | setmodeCbc ivlen => exact setMode_setPort 1 ivlen s q
  | setmodePcbc ivlen => exact setMode_setPort 2 ivlen s q
  | setmodeCfb ivlen => exact setMode_setPort 3 ivlen s q
  | setmodeOfb ivlen => exact setMode_setPort 4 ivlen s q
  | setmodeCtr ivlen => exact setMode_setPort 5 ivlen s q
  | setmodeCtrle ivlen => exact setMode_setPort 6 ivlen s q
  | setmodeBad ivlen => exact setMode_setPort 7 ivlen s q
  | enc len => exact crypt_setPort .encrypt len s q
  | dec len => exact crypt_setPort .decrypt len s q

theorem command_setPort (w : Word) (s : State) (q : List Event) :
    ∃ t, command w s = .next t ∧ command w (s.setPort q) = .next (t.setPort q) := by
  rcases (Bool.eq_false_or_eq_true s.fault).symm with h | h
  · refine ⟨_, command_of_noFault h, ?_⟩
    rw [command_of_noFault (s := s.setPort q) h]
    unfold wordEffect
    cases decode w with
    | ok i => exact congrArg _ (effect_setPort i s q)
    | error _ => rfl
  · exact ⟨_, command_of_fault h, command_of_fault h⟩

theorem storeByte_setPort (a : Nat) (v : Byte) (s : State) (q : List Event) :
    storeByte a v (s.setPort q) = (storeByte a v s).setPort q := by
  unfold storeByte
  rw [State.setPort_build]
  split
  · rw [State.setPort_bs]; split <;> rfl
  all_goals rfl

theorem storeLanes_setPort (a : Nat) (v : Word) (n j : Nat) (s : State) (q : List Event) :
    storeLanes a v n j (s.setPort q) = (storeLanes a v n j s).setPort q := by
  induction n generalizing j s with
  | zero => rfl
  | succ n ih => rw [storeLanes, storeByte_setPort, ih]; rfl

/-- An access does the same whatever waits behind it, and leaves that waiting (20_memory.md R72). -/
theorem hostAccess_setPort (a : Access) (s : State) (q : List Event) :
    ∃ t, hostAccess a s = .next t ∧ hostAccess a (s.setPort q) = .next (t.setPort q) := by
  unfold hostAccess
  rw [State.setPort_build]
  cases busError s.build.nbuf a with
  | some c => exact ⟨_, rfl, rfl⟩
  | none =>
    cases a with
    | read addr w => exact ⟨_, rfl, rfl⟩
    | write addr w v =>
      by_cases hr : region s.build.nbuf addr.toNat = .reg .cmd
      · obtain ⟨t, h1, h2⟩ := command_setPort v s q
        simp only [hr, if_true, h1, h2, answered]
        exact ⟨_, rfl, rfl⟩
      · simp only [hr, if_false, storeLanes_setPort]
        exact ⟨_, rfl, rfl⟩

/-! ## One turn -/

theorem step_idle {s : State} (h : s.port = []) : step s = .next s := by simp [step, State.nextEvent, h]

theorem step_cons {s : State} {e : Event} {rest : List Event} (h : s.port = e :: rest) :
    step s = serve e (s.setPort rest) := by simp [step, State.nextEvent, h]

end Sys2Proof.Machine
end

