-- ==== Sys2Proof/Laws/Invariant.lean ====
section
/-! SUPPORT. Each operation of the machine keeps the invariant of Safety.lean. -/

namespace Sys2Proof.Machine

/-- A legal MODE is a code up to CTR, or CTR-LE where the policy admits it (10_state.md R26). -/
theorem legalMode_iff {policy : Config.CtrlePolicy} {m : BitVec 3} :
    legalMode policy m = true ↔ m.toNat ≤ 5 ∨ (m = 6 ∧ policy ≠ .reject) := by
  revert m; cases policy <;> decide

/-- The codes SET_MODE does not refuse are legal (43_configuration.md R211, R212). -/
theorem legalMode_of_accepted {policy : Config.CtrlePolicy} {m : BitVec 3} (h7 : m ≠ 7)
    (h6 : ¬(m = 6 ∧ policy = .reject)) : legalMode policy m = true := by
  revert m; cases policy <;> decide

/-- Every outcome has one of the codes 0 .. 8 (60_exceptions.md R260). -/
theorem ResultCode.code_le (r : ResultCode) : r.code.toNat ≤ 8 := by cases r <;> decide

namespace EngineInv

variable {s : State} (h : EngineInv s)

include h

theorem chainSized : s.chain.sized s.bs := ⟨h.ivBytes, h.ctrBytes⟩

theorem bs_pos : 0 < s.bs := by rcases h.blockBytes with e | e <;> omega

theorem setResult (r : ResultCode) : EngineInv (s.setResult r) := { h with result := r.code_le }

theorem setPort (p : List Event) : EngineInv (s.setPort p) := { h with }

theorem setAnswer (a : Answer) : EngineInv (s.setAnswer a) := { h with }

theorem armEcb : EngineInv (Machine.armEcb s) :=
  { h with
    ivBytes := zeroBlock_length _
    ctrBytes := zeroBlock_length _
    mode := legalMode_iff.mpr (.inl (Nat.zero_le _))
    result := ResultCode.code_le _ }

theorem armIv {m : BitVec 3} (h7 : m ≠ 7) (h6 : ¬(m = 6 ∧ s.build.ctrle = .reject)) : EngineInv (Machine.armIv m s) := by
  rw [armIv_eq]
  exact { h with
    ivBytes := by simp [h.ivInBytes]
    ctrBytes := zeroBlock_length _
    mode := legalMode_of_accepted h7 h6
    result := Nat.zero_le _ }

theorem setMode (m : BitVec 3) (ivlen : Nat) : EngineInv (Machine.setMode m ivlen s) := by
  rcases setMode_cases m ivlen s with ⟨e, -, -, -, he⟩ | ⟨-, he⟩ | ⟨-, h7, h6, -, he⟩ <;> rw [he]
  · exact h.setResult e
  · exact h.armEcb
  · exact h.armIv h7 h6

theorem runBlocks (d : Dir) (p : Route) {n : Nat} (hn : n * s.bs ≤ s.build.nbuf) :
    EngineInv (Machine.runBlocks d p n 0 s) := by
  have hs := runBlocks_sized d p n 0 h.chainSized
  constructor
  · rw [runBlocks_build]; exact h.build
  · rw [runBlocks_bs]; exact h.blockBytes
  · rw [runBlocks_adapter, runBlocks_bs]; exact h.adapter
  · rw [runBlocks_cipherId, runBlocks_bs]; exact h.cipher
  · rw [runBlocks_keyBytes]; exact h.key
  · rw [runBlocks_bs]; exact hs.1
  · rw [runBlocks_bs]; exact hs.2
  · rw [runBlocks_ivIn, runBlocks_bs]; exact h.ivInBytes
  · rw [runBlocks_build, runBlocks_mode]; exact h.mode
  · rw [runBlocks_result]; exact h.result
  · rw [runBlocks_fault]; exact h.noFault
  · exact runBlocks_wf d p n 0 h.bufForm
  · intro c hc
    rw [runBlocks_build]
    rcases runBlocks_mem d p n 0 h.chainSized hc with hc | hc
    · rw [Nat.zero_add] at hc; omega
    · exact h.bufBytes c hc

/-- The fault entry is not taken: MODE is legal (60_exceptions.md R272). -/
theorem crypt (d : Dir) (len : Nat) : EngineInv (Machine.crypt d len s) := by
  rcases crypt_cases d len s with ⟨e, -, -, -, he⟩ | ⟨-, hr, -⟩ | ⟨p, hc, -, he⟩
  · rw [he]; exact h.setResult e
  · have := h.mode
    rw [legalMode, hr] at this
    cases this
  · rw [he]
    have hl := (cryptError_eq_none.mp hc).2.2
    exact (h.runBlocks d p (le_trans (Nat.div_mul_le_self len s.bs) hl)).setResult .ok

theorem effect (i : Instr) : EngineInv (Machine.effect i s) := by
  cases i
  case setmodeEcb ivlen => exact h.setMode 0 ivlen
  case setmodeCbc ivlen => exact h.setMode 1 ivlen
  case setmodePcbc ivlen => exact h.setMode 2 ivlen
  case setmodeCfb ivlen => exact h.setMode 3 ivlen
  case setmodeOfb ivlen => exact h.setMode 4 ivlen
  case setmodeCtr ivlen => exact h.setMode 5 ivlen
  case setmodeCtrle ivlen => exact h.setMode 6 ivlen
  case setmodeBad ivlen => exact h.setMode 7 ivlen
  case enc len => exact h.crypt .encrypt len
  case dec len => exact h.crypt .decrypt len

theorem wordEffect (w : Word) : EngineInv (Machine.wordEffect w s) := by
  unfold Machine.wordEffect
  cases decode w with
  | ok i => exact h.effect i
  | error _ => exact h.setResult .eCmd

theorem storeByte (a : Nat) (v : Byte) : EngineInv (Machine.storeByte a v s) := by
  rcases storeByte_cases a v s with he | ⟨i, he⟩ | ⟨off, hoff, he⟩ <;> rw [he]
  · exact h
  · exact { h with ivInBytes := by show (s.ivIn.set i v).length = s.bs; simp [h.ivInBytes] }
  · exact
      { h with
        bufForm := Memory.write_wf off v h.bufForm
        bufBytes := by
          intro c hc
          rcases Memory.mem_write hc with rfl | hc
          · exact hoff
          · exact h.bufBytes c hc }

omit h in
theorem storeLanes (h : EngineInv s) (a : Nat) (v : Word) (n j : Nat) : EngineInv (Machine.storeLanes a v n j s) :=
  storeLanes_induct EngineInv (fun a v _ h => h.storeByte a v) a v n j s h

/-- One host access keeps the invariant. -/
theorem hostAccess {t : State} (a : Access) (ht : Machine.hostAccess a s = .next t) : EngineInv t := by
  rcases hostAccess_cases a s with ⟨-, he⟩ | ⟨_, _, -, -, he⟩ | ⟨v, -, he⟩ | ⟨_, _, _, -, -, -, he⟩ <;>
    rw [ht] at he <;> cases he
  · exact h.setAnswer _
  · exact h.setAnswer _
  · refine EngineInv.setAnswer ?_ _
    rw [h.noFault]; exact h.wordEffect v
  · exact (h.storeLanes _ _ _ _).setAnswer _

end EngineInv

/-- Every construction that R290 does not refuse leaves a state of the invariant. -/
theorem constructed_inv {b : Config.Build} (hb : b.wf) (n : Nat) (p : List Event) {i : Inputs} (hi : i.legal = true) :
    EngineInv (constructed b n p i) := by
  simp only [Inputs.legal, Bool.and_eq_true, Bool.or_eq_true, decide_eq_true_eq] at hi
  obtain ⟨⟨h1, h2⟩, h3⟩ := hi
  have hid : i.cipherId ≤ 5 := by
    by_contra hid
    have : cipherBlockSize i.cipherId = none := by
      unfold cipherBlockSize; split <;> first | omega | rfl
    rw [this] at h2; cases h2
  constructor
  · exact hb
  · exact h1
  · rfl
  · show cipherBlockSize (BitVec.ofNat 8 i.cipherId).toNat = _
    rw [BitVec.toNat_ofNat, Nat.mod_eq_of_lt (by omega)]; exact h2
  · exact h3
  · exact zeroBlock_length _
  · exact zeroBlock_length _
  · exact zeroBlock_length _
  · exact legalMode_iff.mpr (.inl (Nat.zero_le _))
  · exact Nat.zero_le _
  · rfl
  · exact ⟨List.Pairwise.nil, fun c hc => by cases hc⟩
  · intro c hc; cases hc

end Sys2Proof.Machine
end

