-- ==== Sys2Proof/Laws/PerInstr.lean ====
section
/-! SUPPORT. One family of facts about every command as syntax: its encoding is a word of its own row of the command
map (30_encoding.md R95). -/

namespace Sys2Proof.Laws.EncodingRow

/-- The word of a well-formed command is selected by the row of the command map that carries its mnemonic. -/
def Statement (i : Instr) : Prop :=
  i.wellFormed = true → ∃ r ∈ opRows, r.mnemonic = i.mnemonic ∧ r.selects (encode i) = true

/-- A word of format M under the mask of its rows. -/
theorem formatM_masked {mode ivlen : Nat} (hm : mode < 8) (hl : ivlen < 256) :
    formatM mode ivlen &&& 0xFFFF00FF = BitVec.ofNat 32 (1 + mode * 16) := by
  apply BitVec.eq_of_toNat_eq
  rw [and_maskM, formatM_toNat hm hl, BitVec.toNat_ofNat]
  omega

/-- A word of format D under the mask of its rows. -/
theorem formatD_masked {op len : Nat} (ho : op < 16) (hl : len < 65536) :
    formatD op len &&& 0x0000FFFF = BitVec.ofNat 32 op := by
  apply BitVec.eq_of_toNat_eq
  rw [and_maskD, formatD_toNat ho hl, BitVec.toNat_ofNat]
  omega

/-- The row of a SETMODE command, from its MODE field. -/
theorem of_formatM {i : Instr} {r : OpRow} {mode ivlen : Nat} (hr : r ∈ opRows) (hn : r.mnemonic = i.mnemonic)
    (hk : r.mask = 0xFFFF00FF) (hp : r.pattern = BitVec.ofNat 32 (1 + mode * 16)) (hm : mode < 8)
    (he : encode i = formatM mode ivlen) (hw : i.wellFormed = true → ivlen < 256) : Statement i := by
  intro h
  refine ⟨r, hr, hn, decide_eq_true ?_⟩
  rw [hk, hp, he, formatM_masked hm (hw h)]

/-- The row of a block command, from its OP field. -/
theorem of_formatD {i : Instr} {r : OpRow} {op len : Nat} (hr : r ∈ opRows) (hn : r.mnemonic = i.mnemonic)
    (hk : r.mask = 0x0000FFFF) (hp : r.pattern = BitVec.ofNat 32 op) (ho : op < 16)
    (he : encode i = formatD op len) (hw : i.wellFormed = true → len < 65536) : Statement i := by
  intro h
  refine ⟨r, hr, hn, decide_eq_true ?_⟩
  rw [hk, hp, he, formatD_masked ho (hw h)]

theorem setmodeEcb (ivlen : Nat) : Statement (.setmodeEcb ivlen) :=
  of_formatM (List.getElem_mem (n := 0) (by decide)) rfl rfl rfl (mode := 0) (by decide) rfl of_decide_eq_true

theorem setmodeCbc (ivlen : Nat) : Statement (.setmodeCbc ivlen) :=
  of_formatM (List.getElem_mem (n := 1) (by decide)) rfl rfl rfl (mode := 1) (by decide) rfl of_decide_eq_true

theorem setmodePcbc (ivlen : Nat) : Statement (.setmodePcbc ivlen) :=
  of_formatM (List.getElem_mem (n := 2) (by decide)) rfl rfl rfl (mode := 2) (by decide) rfl of_decide_eq_true

theorem setmodeCfb (ivlen : Nat) : Statement (.setmodeCfb ivlen) :=
  of_formatM (List.getElem_mem (n := 3) (by decide)) rfl rfl rfl (mode := 3) (by decide) rfl of_decide_eq_true

theorem setmodeOfb (ivlen : Nat) : Statement (.setmodeOfb ivlen) :=
  of_formatM (List.getElem_mem (n := 4) (by decide)) rfl rfl rfl (mode := 4) (by decide) rfl of_decide_eq_true

theorem setmodeCtr (ivlen : Nat) : Statement (.setmodeCtr ivlen) :=
  of_formatM (List.getElem_mem (n := 5) (by decide)) rfl rfl rfl (mode := 5) (by decide) rfl of_decide_eq_true

theorem setmodeCtrle (ivlen : Nat) : Statement (.setmodeCtrle ivlen) :=
  of_formatM (List.getElem_mem (n := 6) (by decide)) rfl rfl rfl (mode := 6) (by decide) rfl of_decide_eq_true

theorem setmodeBad (ivlen : Nat) : Statement (.setmodeBad ivlen) :=
  of_formatM (List.getElem_mem (n := 7) (by decide)) rfl rfl rfl (mode := 7) (by decide) rfl of_decide_eq_true

theorem enc (len : Nat) : Statement (.enc len) :=
  of_formatD (List.getElem_mem (n := 8) (by decide)) rfl rfl rfl (op := 2) (by decide) rfl of_decide_eq_true

theorem dec (len : Nat) : Statement (.dec len) :=
  of_formatD (List.getElem_mem (n := 9) (by decide)) rfl rfl rfl (op := 3) (by decide) rfl of_decide_eq_true

end Sys2Proof.Laws.EncodingRow
end

