-- ==== Sys2Proof/Tests/Slice0.lean ====
section
/-! SUPPORT. Tests of the model, and a witness for the hypotheses of each statement. Expected values are those of
95_test_vectors.md (the vector's name stands in each docstring) or written out from the rule named. -/

open Sys2Proof Sys2Proof.Machine Sys2Proof.Statements

namespace Sys2Proof.Tests

/-! ## Small states -/

/-- The IV of every TOY vector. -/
def iv0 : Block := [0x01, 0x02, 0x03, 0x04, 0x05, 0x06, 0x07, 0x08]

/-- P0 ++ P1 of V-TOY. -/
def plain : List Byte :=
  [0x00, 0x11, 0x22, 0x33, 0x44, 0x55, 0x66, 0x77, 0x88, 0x99, 0xAA, 0xBB, 0xCC, 0xDD, 0xEE, 0xFF]

/-- BUF holding some bytes from offset 0. -/
def bufOf (l : List Byte) : Memory := Memory.writeBytes [] 0 l

/-- The TOY handle in a mode, armed with `iv0` as SET_MODE leaves it, BUF holding P0 ++ P1. -/
def toy (policy : Config.CtrlePolicy) (m : BitVec 3) : State :=
  { State.reset with build := { nbuf := 256, ctrle := policy }, mode := m, iv := iv0, ivIn := iv0, buf := bufOf plain }

/-- The same with other capability flags. -/
def toyCaps (canEnc canDec : Bool) (m : BitVec 3) : State :=
  { toy .reject m with canEnc := canEnc, canDec := canDec }

/-- An AES-256 handle (BS = 16) with some external adapter, as V-INTRO's third row: decrypt only. -/
def aes256 : Inputs :=
  { adapter := .external 0 16, key := [], canEnc := false, canDec := true, cipherId := 2, keyBytes := 32 }

/-- Its state, in CTR. -/
def aes : State := { constructed { nbuf := 256, ctrle := .littleEndian } 0 [] aes256 with mode := 5 }

/-- The state in the fault state (V-FAULT). -/
def faulted : State := { toy .reject 7 with fault := true }

/-- A component of the next state, if there is one. -/
def after {α : Type} (o : Host.Outcome State Fault Refusal) (f : State → α) : Option α :=
  match o with
  | .next s => some (f s)
  | .fault _ => none
  | .refused _ => none

/-- RESULT, MODE, IV and CTR as numbers. -/
def core4 (s : State) : Nat × Nat × Block × Block := (s.result.toNat, s.mode.toNat, s.iv, s.ctr)

/-! ## Well-formedness: each check refuses (30_encoding.md R92, R93) -/

theorem test_wellFormed_setmodeEcb : (Instr.setmodeEcb 256).wellFormed = false := by decide
theorem test_wellFormed_setmodeCbc : (Instr.setmodeCbc 256).wellFormed = false := by decide
theorem test_wellFormed_setmodePcbc : (Instr.setmodePcbc 256).wellFormed = false := by decide
theorem test_wellFormed_setmodeCfb : (Instr.setmodeCfb 256).wellFormed = false := by decide
theorem test_wellFormed_setmodeOfb : (Instr.setmodeOfb 256).wellFormed = false := by decide
theorem test_wellFormed_setmodeCtr : (Instr.setmodeCtr 256).wellFormed = false := by decide
theorem test_wellFormed_setmodeCtrle : (Instr.setmodeCtrle 256).wellFormed = false := by decide
theorem test_wellFormed_setmodeBad : (Instr.setmodeBad 256).wellFormed = false := by decide
theorem test_wellFormed_enc : (Instr.enc 65536).wellFormed = false := by decide
theorem test_wellFormed_dec : (Instr.dec 65536).wellFormed = false := by decide

/-! ## Decoding: words written out from the pattern strings of 30_encoding.md R92, R93 -/

/-- The command a word decodes to. -/
def decoded (w : Word) : Option Instr :=
  match decode w with
  | .ok i => some i
  | .error _ => none

theorem test_decode_setmodeEcb : decoded 0b00000000000000000000001100000001 = some (.setmodeEcb 3) := by decide
theorem test_decode_setmodeCbc : decoded 0b00000000000000000000100000010001 = some (.setmodeCbc 8) := by decide
theorem test_decode_setmodePcbc : decoded 0b00000000000000001111111100100001 = some (.setmodePcbc 255) := by decide
theorem test_decode_setmodeCfb : decoded 0b00000000000000000000000000110001 = some (.setmodeCfb 0) := by decide
theorem test_decode_setmodeOfb : decoded 0b00000000000000000000100001000001 = some (.setmodeOfb 8) := by decide
theorem test_decode_setmodeCtr : decoded 0b00000000000000001000000001010001 = some (.setmodeCtr 128) := by decide
theorem test_decode_setmodeCtrle : decoded 0b00000000000000000001000001100001 = some (.setmodeCtrle 16) := by decide
theorem test_decode_setmodeBad : decoded 0b00000000000000000000100001110001 = some (.setmodeBad 8) := by decide
theorem test_decode_enc : decoded 0b00000001000000000000000000000010 = some (.enc 256) := by decide
theorem test_decode_dec : decoded 0b11111111111111110000000000000011 = some (.dec 65535) := by decide

/-- R97, R98: V-ERR-9 to V-ERR-12 and V-SM-12, V-SM-13. -/
theorem test_decode_rejects :
    [0x00000000, 0xFFFFFFFF, 0x00000004, 0x00080012, 0x00008002, 0x00000081, 0x01000071].map decoded =
      List.replicate 7 none := by decide

/-- The table numbers bit 0 the least significant bit of the word; the bits above nbits are zero. -/
theorem test_decodeTableWord :
    decodeTableWord 32 0x00080003 = some (.dec 8) ∧ decodeTableWord 16 0xFFFF0002 = some (.enc 0) ∧
      decodeTableWord 32 0x00080012 = none := by decide

/-- A word lies in memory lowest lane first (20_memory.md R63). -/
theorem test_decodeBytes_order :
    (match decodeBytes [0x11, 0x08, 0x00, 0x00, 0xAB] with
      | .ok r => decide (r = (.setmodeCbc 8, [0xAB]))
      | .error _ => false) = true := by decide

/-! ## The datapath -/

/-- V-XOR. -/
theorem test_xorBlock : xorBlock [0x00, 0x11, 0x22, 0x33, 0x44, 0x55, 0x66, 0x77] iv0 =
    [0x01, 0x13, 0x21, 0x37, 0x41, 0x53, 0x61, 0x7F] := by decide

/-- V-INC-BE-2 to V-INC-BE-5. -/
theorem test_incBe :
    incBe [0, 0, 0, 0, 0, 0, 0, 0xFF] = [0, 0, 0, 0, 0, 0, 1, 0] ∧
    incBe (List.replicate 8 0xFF) = zeroBlock 8 ∧
    incBe [0x12, 0x34, 0x56, 0x78, 0x9A, 0xBC, 0xDE, 0xFF] = [0x12, 0x34, 0x56, 0x78, 0x9A, 0xBC, 0xDF, 0x00] ∧
    incBe (0x00 :: List.replicate 7 0xFF) = 0x01 :: zeroBlock 7 := by decide

/-- V-INC-LE. -/
theorem test_incLe :
    incLe (0xFF :: zeroBlock 7) = [0, 1, 0, 0, 0, 0, 0, 0] ∧ incLe (List.replicate 8 0xFF) = zeroBlock 8 ∧
    incLe (List.replicate 7 0xFF ++ [0]) = zeroBlock 7 ++ [1] := by decide

/-- V-CTRIN. -/
theorem test_counterInput : counterInput { iv := iv0, ctr := [0, 0, 0, 0, 0, 0, 0, 0xFF] } =
    [0x01, 0x02, 0x03, 0x04, 0x05, 0x06, 0x07, 0xF7] := by decide

/-- V-TOY. -/
theorem test_toy_adapter :
    State.reset.enc iv0 = [0xA2, 0xA2, 0xA6, 0xA6, 0xA2, 0xA2, 0xAE, 0xA6] ∧
    State.reset.dec iv0 = [0xAF, 0xA1, 0xA3, 0xA1, 0xA7, 0xA1, 0xA3, 0xA1] := by decide

/-! ## SET_MODE: V-SM rows, from the state after V-ENC-CBC -/

/-- The start state of V-SM. -/
def sm (policy : Config.CtrlePolicy) : State :=
  { toy policy 1 with iv := [0xB9, 0x9E, 0xFB, 0x98, 0xBD, 0x92, 0xFF, 0x9C] }

/-- "Kept": the start values of MODE, IV and CTR, with a RESULT. -/
def kept (result : Nat) : Option (Nat × Nat × Block × Block) :=
  some (result, 1, [0xB9, 0x9E, 0xFB, 0x98, 0xBD, 0x92, 0xFF, 0x9C], zeroBlock 8)

/-- V-SM-2. -/
theorem test_setmodeEcb : after (command 0x00000301 (sm .reject)) core4 = some (0, 0, zeroBlock 8, zeroBlock 8) := by
  decide
/-- V-SM-11. -/
theorem test_setmodeCbc : after (command 0x00000811 (sm .reject)) core4 = some (0, 1, iv0, zeroBlock 8) := by decide
/-- V-SM-4. -/
theorem test_setmodeCbc_ivlen : after (command 0x00001011 (sm .reject)) core4 = kept 4 := by decide
/-- R215. -/
theorem test_setmodePcbc : after (command 0x00000821 (sm .reject)) core4 = some (0, 2, iv0, zeroBlock 8) := by decide
/-- V-SM-5. -/
theorem test_setmodeCfb_absent : after (command 0x00000031 (sm .reject)) core4 = kept 4 := by decide
/-- V-SM-3. -/
theorem test_setmodeOfb : after (command 0x00000841 (sm .reject)) core4 = some (0, 4, iv0, zeroBlock 8) := by decide
/-- R215's example, from a counter that stands elsewhere. -/
theorem test_setmodeCtr :
    after (command 0x00000851 { sm .reject with ctr := iv0 }) core4 = some (0, 5, iv0, zeroBlock 8) := by decide
/-- V-SM-8. -/
theorem test_setmodeCtrle_reject : after (command 0x00000061 (sm .reject)) core4 = kept 3 := by decide
/-- V-SM-9, V-SM-10. -/
theorem test_setmodeCtrle_allowed :
    after (command 0x00000861 (sm .littleEndian)) core4 = some (0, 6, iv0, zeroBlock 8) ∧
    after (command 0x00000061 (sm .ecbFallback)) core4 = kept 4 := by decide
/-- V-SM-6. -/
theorem test_setmodeBad : after (command 0x00000871 (sm .reject)) core4 = kept 2 := by decide
/-- V-SM-12, V-SM-13. -/
theorem test_setmode_reserved :
    after (command 0x00000081 (sm .reject)) core4 = kept 1 ∧ after (command 0x01000071 (sm .reject)) core4 = kept 1 := by
  decide

/-! ## ENCRYPT and DECRYPT -/

/-- RESULT, BUF[0..15], IV and CTR after a command over the TOY handle. -/
def run16 (i : Instr) (s : State) : Option (Nat × List Byte × Block × Block) :=
  after (exec i s) (fun t => (t.result.toNat, t.memRead 0 16, t.iv, t.ctr))

/-- A row of V-ENC: mode, policy, the two output blocks, IV and CTR after. -/
structure Row where
  policy : Config.CtrlePolicy
  mode : BitVec 3
  out : List Byte
  iv : Block
  ctr : Block

/-- The table of 95_test_vectors.md section 4, from PCBC on. -/
def encRows : List Row :=
  [ ⟨.reject, 1, [0xB3, 0x80, 0x95, 0xE2, 0xF7, 0xC4, 0xD9, 0xA6, 0xB9, 0x9E, 0xFB, 0x98, 0xBD, 0x92, 0xFF, 0x9C],
      [0xB9, 0x9E, 0xFB, 0x98, 0xBD, 0x92, 0xFF, 0x9C], zeroBlock 8⟩,
    ⟨.reject, 2, [0xB3, 0x80, 0x95, 0xE2, 0xF7, 0xC4, 0xD9, 0xA6, 0xA8, 0xBC, 0xC8, 0xDC, 0xE8, 0xF4, 0x88, 0x9C],
      [0x20, 0x25, 0x62, 0x67, 0x24, 0x29, 0x66, 0x63], zeroBlock 8⟩,
    ⟨.reject, 3, [0xA2, 0xB3, 0x84, 0x95, 0xE6, 0xF7, 0xC8, 0xD1, 0x9B, 0xBC, 0x9D, 0xFE, 0x9F, 0xB0, 0x99, 0xFA],
      [0x9B, 0xBC, 0x9D, 0xFE, 0x9F, 0xB0, 0x99, 0xFA], zeroBlock 8⟩,
    ⟨.reject, 4, [0xA2, 0xB3, 0x84, 0x95, 0xE6, 0xF7, 0xC8, 0xD1, 0x8A, 0x9E, 0xAE, 0xBA, 0xCA, 0xD6, 0xEE, 0xFA],
      [0x02, 0x07, 0x04, 0x01, 0x06, 0x0B, 0x00, 0x05], zeroBlock 8⟩,
    ⟨.reject, 5, [0xA2, 0xB3, 0x84, 0x95, 0xE6, 0xF7, 0xC8, 0xD1, 0x2A, 0x3B, 0x0C, 0x1D, 0x6E, 0x7F, 0x41, 0x59],
      iv0, [0, 0, 0, 0, 0, 0, 0, 2]⟩,
    ⟨.littleEndian, 6, [0xA2, 0xB3, 0x84, 0x95, 0xE6, 0xF7, 0xC8, 0xD1, 0x2A, 0x3B, 0x0C, 0x1D, 0x6E, 0x7F, 0x40, 0x58],
      iv0, [2, 0, 0, 0, 0, 0, 0, 0]⟩,
    ⟨.ecbFallback, 6, [0xB1, 0x83, 0x91, 0xE7, 0xF1, 0xC3, 0xD1, 0xA7, 0x39, 0x0B, 0x19, 0x6F, 0x79, 0x4B, 0x59, 0x2F],
      iv0, zeroBlock 8⟩ ]

/-- V-ENC. -/
theorem test_enc_modes :
    ∀ r ∈ encRows, run16 (.enc 16) (toy r.policy r.mode) = some (0, r.out, r.iv, r.ctr) := by decide

/-- V-DEC: the matching DECRYPT gives P0 ++ P1 back and leaves the same chaining state. -/
theorem test_dec_modes :
    ∀ r ∈ encRows, run16 (.dec 16) { toy r.policy r.mode with buf := bufOf r.out } =
      some (0, plain, r.iv, r.ctr) := by decide

/-- V-ERR-1, 5, 7, 13 and V-ENC-ZERO. -/
theorem test_enc_errors :
    [after (command 0x00070002 (toyCaps false true 0)) core4, after (command 0x000C0002 (toy .reject 0)) core4,
      after (command 0x01080002 (toy .reject 0)) core4, after (command 0x00070012 (toyCaps false true 0)) core4,
      after (command 0x00000002 (toy .reject 0)) core4] =
    [5, 6, 7, 1, 0].map (fun r => some (r, 0, iv0, zeroBlock 8)) := by decide

/-- V-ERR-2, 3, 4: the capability check of DECRYPT. -/
theorem test_dec_capability :
    (after (command 0x00080003 (toyCaps false true 3)) State.result,
      after (command 0x00080003 (toyCaps false true 1)) State.result,
      after (command 0x00080003 (toyCaps true false 0)) State.result) = (some 5, some 0, some 5) := by decide

/-- V-FAULT. -/
theorem test_fault_entry :
    after (exec (.enc 8) (toy .reject 7)) (fun t => (t.fault, t.result, t.memRead 0 16)) = some (true, 8, plain) ∧
    after (command 0x00000001 faulted) (fun t => (t.mode, t.result, t.statusWord)) = some (7, 8, 0x00000108) := by decide

/-! ## The port -/

/-- The answer to an access. -/
def reply (a : Access) (s : State) : Option (Bool × Word) :=
  (after (hostAccess a s) State.answer).bind (fun x => x.map (fun y => (y.error, y.data)))

/-- V-BUS-1 to V-BUS-5, 7 to 10, 15, 16: a bus error, and RESULT, MODE and IV keep their values. -/
theorem test_bus_errors :
    ∀ a ∈ ([.read 0x002 .w32, .read 0x041 .w16, .read 0x020 .w32, .write 0x070 .w32 0, .read 0x200 .w32, .read 0x004 .w8,
        .write 0x000 .w16 0x0811, .write 0x008 .w32 5, .write 0x050 .w8 0xFF, .read 0x01C .w32, .read 0x022 .w16] :
        List Access),
      reply a { toy .reject 1 with result := 4 } = some (true, 0) ∧
      after (hostAccess a { toy .reject 1 with result := 4 }) core4 = some (4, 1, iv0, zeroBlock 8) := by decide

/-- V-BUS-11 to V-BUS-14, on IV_IN = 01 .. 08 and BUF = P0 ++ P1. -/
theorem test_bus_reads_and_writes :
    reply (.read 0x000 .w32) (toy .reject 0) = some (false, 0) ∧
    reply (.read 0x046 .w16) (toy .reject 0) = some (false, 0x0807) ∧
    after (hostAccess (.write 0x048 .w8 0x55) (toy .reject 0)) (fun t => (t.ivIn, reply (.read 0x048 .w8) t)) =
      some (iv0, some (false, 0)) ∧
    after (hostAccess (.write 0x101 .w8 0xAB) (toy .reject 0)) (fun t => reply (.read 0x100 .w32) t) =
      some (some (false, 0x3322AB00)) := by decide

/-- V-LANE. -/
theorem test_lanes_of_counter :
    (let s : State := { toy .reject 5 with ctr := [0, 0, 0, 0, 0, 0, 0, 1] }
     [reply (.read 0x060 .w32) s, reply (.read 0x064 .w32) s, reply (.read 0x067 .w8) s, reply (.read 0x066 .w16) s]) =
      [some (false, 0), some (false, 0x01000000), some (false, 0x01), some (false, 0x0100)] := by decide

/-- V-INTRO, first and third rows: MODEREG, CAP, CIPHER, BLKSZ, KEYSZ. -/
theorem test_introspection :
    ([0x008, 0x00C, 0x010, 0x014, 0x018].map (fun a => reply (.read a .w32) State.reset)) =
      [0x00000000, 0x00000003, 0x00000003, 0x00400008, 0x00400008].map (fun d => some (false, d)) ∧
    ([0x008, 0x00C, 0x010, 0x014, 0x018].map (fun a => reply (.read a .w32) aes)) =
      [0x00000005, 0x00000002, 0x00000002, 0x00800010, 0x01000020].map (fun d => some (false, d)) := by decide

/-! ## Construction -/

/-- V-TOY: the reset state is a construction (10_state.md R46). -/
theorem test_reset_is_constructed : construct Config.Build.standard 0 [] toyInputs = some State.reset := by decide

/-- V-REFUSE, and the last admitted values on either side (R290). -/
theorem test_construct_refuses :
    [{ toyInputs with adapter := .external 0 4 }, { toyInputs with cipherId := 0 }, { toyInputs with cipherId := 6 },
      { toyInputs with keyBytes := 0 }, { toyInputs with keyBytes := 8192 }, { aes256 with cipherId := 3 }].map Inputs.legal =
      List.replicate 6 false ∧
    [{ toyInputs with cipherId := 5 }, { toyInputs with keyBytes := 1 }, { toyInputs with keyBytes := 8191 }, aes256,
      { aes256 with cipherId := 0 }, { toyInputs with canEnc := false, canDec := false }].map Inputs.legal =
      List.replicate 6 true := by decide

/-- One step from reset runs the word given: 0x00000301 is SETMODE.ECB, and 0x00000871 sets E_MODE. -/
theorem test_withFetchWord :
    after (step (State.reset.withFetchWord 32 0x00000301)) (fun t => (t.result, t.port)) = some (0, []) ∧
    after (step (State.reset.withFetchWord 32 0x00000871)) (fun t => (t.result, t.port)) = some (2, []) := by decide

/-! ## The host's side -/

/-- R221: letter case is folded, and the hyphen of CTR-LE is part of the name. -/
theorem test_mode_names :
    [['c', 'b', 'c'], ['C', 't', 'r', '-', 'l', 'E'], ['C', 'T', 'R', 'L', 'E'], ['c', 't', 'r', '_', 'l', 'e']].map modeCode =
      [1, 6, 7, 7] := by decide

/-- R247's record, for V-INTRO's third row. -/
theorem test_describe : describe aes = some
    { cipher := "AES-256", blockBytes := 16, blockBits := 128, keyBytes := 32, keyBits := 256, canEncode := 0,
      canDecode := 1, mode := "CTR" } := by decide

/-- R122: zero-fill to a block boundary, and nothing to add on one. -/
theorem test_padding : padded 8 [1, 2, 3] = [1, 2, 3, 0, 0, 0, 0, 0] ∧ padded 8 iv0 = iv0 := by decide

/-- R102: the mode names' words, each IVLEN 8. -/
theorem test_assembler_names :
    assemblerNames.map (fun r => assemble (.setmode (.name r.1) 8)) =
      [0x00000801, 0x00000811, 0x00000821, 0x00000831, 0x00000841, 0x00000851, 0x00000861].map
        (fun w => some (.write 0x000 .w32 w)) ∧
    assemble (.setmode (.name ['C', 'T', 'R', '-', 'L', 'E']) 8) = none := by decide

/-- R102, R103: P1's `arm CBC, iv0` expands to two loads and the word 0x00000811. -/
theorem test_arm :
    ((arm (.name ['C', 'B', 'C']) 8 iv0).bind assembleAll) =
      some [.write 0x040 .w32 0x04030201, .write 0x044 .w32 0x08070605, .write 0x000 .w32 0x00000811] := by decide

/-! ## Witnesses: concrete states and operands that meet the hypotheses of each statement together -/

/-- The contents of BUF in the TOY states. -/
theorem plain_rising : (bufOf plain).Pairwise (fun x y => x.1 < y.1) ∧ ∀ c ∈ bufOf plain, c.1 < 256 := by decide

/-- The TOY states meet the invariant in every mode that is legal under their policy. -/
theorem toy_inv (policy : Config.CtrlePolicy) (m : BitVec 3) (h : legalMode policy m = true) : EngineInv (toy policy m) :=
  { build := (by decide : 256 % 16 = 0 ∧ 16 ≤ 256 ∧ 256 ≤ 65280)
    blockBytes := .inl rfl
    adapter := rfl
    cipher := rfl
    key := (by decide : 1 ≤ 8 ∧ 8 ≤ 8191)
    ivBytes := rfl
    ctrBytes := rfl
    ivInBytes := rfl
    mode := h
    result := Nat.zero_le _
    noFault := rfl
    bufForm := ⟨plain_rising.1, fun _ _ => Option.some_ne_none _⟩
    bufBytes := plain_rising.2 }

/-- A 16-byte-block state of the invariant, with every register zero. -/
theorem aes_inv : EngineInv aes :=
  { constructed_inv (b := { nbuf := 256, ctrle := .littleEndian }) (by decide) 0 [] (i := aes256) (by decide) with
    mode := by decide }

/-- The lengths a TOY state runs: multiples of 8 up to 256. -/
theorem toy_runs (policy : Config.CtrlePolicy) (m : BitVec 3) {len : Nat} (hl : len % 8 = 0) (hn : len ≤ 256) :
    Runs len (toy policy m) := ⟨rfl, hl, hn⟩

/-- A TOY state with something at its port. -/
def waiting (p : List Event) : State := (toy .reject 1).setPort p

theorem waiting_inv (p : List Event) : EngineInv (waiting p) := (toy_inv .reject 1 rfl).setPort p

/-- The CMD write of a word. -/
def cmd (w : Word) : Event := .access (.write 0x000 .w32 w)

theorem witness_ConstructionGivesResetValues :
    construct Config.Build.standard 0 [] toyInputs = some State.reset ∧
    (construct Config.Build.standard 0 [] aes256).isSome = true := by decide

theorem witness_StepKeepsInvariant :
    EngineInv (waiting [cmd 0x00000841]) ∧ ∃ t, step (waiting [cmd 0x00000841]) = .next t ∧ t.mode = 4 :=
  ⟨waiting_inv _, _, rfl, rfl⟩

/-- One step of a run from a construction, with a SETMODE.PCBC at the port. -/
theorem witness_ReachableStatesAreLegal :
    Config.Build.standard.wf ∧ ∃ s t, construct Config.Build.standard 0 [cmd 0x00000821] toyInputs = some s ∧
      core.run 1 s = .next t ∧ t.mode = 2 :=
  ⟨by decide, _, _, rfl, rfl, rfl⟩

/-- A port with each kind of interaction that is served. -/
theorem witness_ServedRunsNeverStop :
    EngineInv (waiting [cmd 0xFFFFFFFF, .construct aes256, .release]) ∧
      (waiting [cmd 0xFFFFFFFF, .construct aes256, .release]).servable :=
  ⟨waiting_inv _, by show ∀ e ∈ [cmd 0xFFFFFFFF, .construct aes256, .release], _; decide⟩

/-- The operands at the ends of their fields. -/
theorem witness_DecodeOfEncode :
    ([.setmodeEcb 0, .setmodeCbc 255, .setmodePcbc 255, .setmodeCfb 255, .setmodeOfb 255, .setmodeCtr 255, .setmodeCtrle 255,
      .setmodeBad 255, .enc 65535, .dec 65535] : List Instr).all Instr.wellFormed = true := by decide

theorem witness_EncodeOfDecode : decode 0xFFFF0002 = .ok (.enc 65535) ∧ decode 0x0000FF71 = .ok (.setmodeBad 255) :=
  ⟨rfl, rfl⟩

/-- OP 0, 4 and 15. -/
theorem witness_UnassignedOpSetsECmd : (toy .reject 1).fault = false ∧
    bits 0x00000000 0 4 = 0 ∧ 4 ≤ bits 0x00000004 0 4 ∧ 4 ≤ bits 0xFFFFFFFF 0 4 := by decide

/-- Bit 7, bit 16 and bit 31 of format M, bit 4 and bit 15 of format D. -/
theorem witness_ReservedBitsSetECmd : (toy .reject 1).fault = false ∧
    ((bits 0x00000081 0 4 = 1 ∧ bits 0x00000081 7 1 ≠ 0) ∧ (bits 0x00010011 0 4 = 1 ∧ bits 0x00010011 16 16 ≠ 0) ∧
      (bits 0x80000011 0 4 = 1 ∧ bits 0x80000011 16 16 ≠ 0)) ∧
    ((bits 0x00080012 0 4 = 2 ∧ bits 0x00080012 4 12 ≠ 0) ∧ (bits 0x00008003 0 4 = 3 ∧ bits 0x00008003 4 12 ≠ 0)) := by
  decide

/-- The ends of each range: LEN 65535 and 65536, code 7 and 8, IVLEN 255 and 256; a name in and out of the vocabulary;
the last address of each width, a misaligned one, and one past the port space. -/
theorem witness_AssemblerEncodesItsStatement :
    (assemble (.enc 65535) = some (.write 0x000 .w32 0xFFFF0002) ∧ assemble (.enc 65536) = none ∧
      assemble (.dec 0) = some (.write 0x000 .w32 0x00000003) ∧ assemble (.dec 65536) = none) ∧
    (assemble (.setmode (.raw 7) 255) = some (.write 0x000 .w32 0x0000FF71) ∧ assemble (.setmode (.raw 8) 0) = none ∧
      assemble (.setmode (.raw 0) 256) = none) ∧
    ((['C', 'T', 'R', 'L', 'E'], 6) ∈ assemblerNames ∧ (∀ r ∈ assemblerNames, ['C', 'T', 'R', '-', 'L', 'E'] ≠ r.1)) ∧
    (0xFFFC % Width.w32.bytes = 0 ∧ 0xFFFF % Width.w8.bytes = 0 ∧ 0x102 % Width.w32.bytes ≠ 0 ∧ 65536 ≤ 0x10000) := by decide

theorem witness_StepRunsDecodedCommand :
    (waiting [cmd 0x00080002, .release]).port = .access (.write 0x000 .w32 0x00080002) :: [.release] ∧
    decode 0x00080002 = .ok (.enc 8) := ⟨rfl, rfl⟩

/-- One port for each clause. -/
theorem witness_PortTurnsOutsideAccesses :
    (waiting []).port = [] ∧
    ((waiting [.construct aes256]).port = .construct aes256 :: [] ∧ aes256.legal = true) ∧
    ((waiting [.construct { aes256 with cipherId := 6 }]).port = .construct { aes256 with cipherId := 6 } :: [] ∧
      ({ aes256 with cipherId := 6 } : Inputs).legal = false) ∧
    (waiting [.release]).port = .release :: [] ∧
    (waiting [.accessDuringConstruction (.read 0x000 .w32)]).port =
      .accessDuringConstruction (.read 0x000 .w32) :: [] := by decide

theorem witness_PortServesAccessesInOrder :
    (waiting [cmd 0x00000841, .access (.read 0x050 .w32), .release]).port =
      ([.write 0x000 .w32 0x00000841, .read 0x050 .w32] : List Access).map .access ++ [.release] := rfl

theorem witness_SetmodeEcbClears : (toy .reject 1).fault = false := rfl

theorem witness_SetmodeArmsIv :
    (toy .littleEndian 1).fault = false ∧ (Instr.setmodeCtr 8, (5 : BitVec 3)) ∈ ivRows (toy .littleEndian 1).bs ∧
    (toy .littleEndian 1).build.ctrle ≠ .reject ∧ (toy .ecbFallback 1).build.ctrle ≠ .reject := by decide

/-- IVLEN just below and just above BS, absent, and at the end of its field. -/
theorem witness_SetmodeRefusesIvLength :
    (toy .ecbFallback 1).fault = false ∧ (∀ ivlen ∈ [0, 7, 9, 255], ivlen ≠ (toy .ecbFallback 1).bs) ∧
    (Instr.setmodeCbc 7, (1 : BitVec 3)) ∈ ivRows 7 ∧ (toy .ecbFallback 1).build.ctrle ≠ .reject := by decide

/-- One state and IVLEN for each clause. -/
theorem witness_SetmodeCtrleFollowsPolicy :
    ((toy .reject 1).fault = false ∧ (toy .reject 1).build.ctrle = .reject) ∧
    ((toy .littleEndian 1).fault = false ∧ (toy .littleEndian 1).build.ctrle ≠ .reject ∧ 7 ≠ (toy .littleEndian 1).bs) ∧
    8 = (toy .littleEndian 1).bs := by decide

theorem witness_SetmodeBadFails : (toy .reject 1).fault = false := rfl

theorem witness_FailingSetmodeWritesOnlyResult :
    Instr.setmodeCfb 7 ∈ setmodeRows 7 ∧ ∃ t, exec (.setmodeCfb 7) (toy .reject 1) = .next t ∧ t.result ≠ 0 :=
  ⟨by decide, _, rfl, by decide⟩

theorem witness_SetmodeIgnoresCipherAndBuffer :
    Instr.setmodeCtr 8 ∈ setmodeRows 8 ∧ ∃ t, exec (.setmodeCtr 8) (toy .reject 1) = .next t ∧ t.mode = 5 :=
  ⟨by decide, _, rfl, rfl⟩

/-- A SETMODE and a construction that change MODE. -/
theorem witness_ModeHasTwoWriters :
    (∃ t, step (waiting [cmd 0x00000841]) = .next t ∧ t.mode ≠ (waiting [cmd 0x00000841]).mode) ∧
    (∃ t, step (waiting [.construct toyInputs]) = .next t ∧ t.mode ≠ (waiting [.construct toyInputs]).mode) :=
  ⟨⟨_, rfl, by decide⟩, ⟨_, rfl, by decide⟩⟩

/-- A step that counts CTR on, and one that zeroes it. -/
theorem witness_CtrHasThreeWriters :
    (∃ t, step ((toy .reject 5).setPort [cmd 0x00100002]) = .next t ∧ t.ctr = [0, 0, 0, 0, 0, 0, 0, 2]) ∧
    (∃ t, step ((toy .littleEndian 6).setPort [cmd 0x00080003]) = .next t ∧ t.ctr = [1, 0, 0, 0, 0, 0, 0, 0]) ∧
    (∃ t, step (({ toy .reject 5 with ctr := iv0 } : State).setPort [cmd 0x00000001]) = .next t ∧ t.ctr = zeroBlock 8) :=
  ⟨⟨_, rfl, by decide⟩, ⟨_, rfl, by decide⟩, ⟨_, rfl, by decide⟩⟩

/-- Both sides of the check: without CAN_DEC, without CAN_ENC in a keystream mode, and with what each mode needs. -/
theorem witness_DecryptCapabilityCheck :
    ((toyCaps true false 0).fault = false ∧ (toyCaps true false 0).canDec ≠ true) ∧
    ((toyCaps false true 3).mode = 3 ∧ (toyCaps false true 3).canEnc ≠ true) ∧
    ((toyCaps false true 2).canDec = true ∧ (toyCaps false true 2).mode ≠ 3 ∧ (toyCaps false true 2).mode ≠ 4 ∧
      (toyCaps false true 2).mode ≠ 5 ∧ (toyCaps false true 2).mode ≠ 6) ∧
    ((toyCaps true true 5).canDec = true ∧ (toyCaps true true 5).canEnc = true) := by decide

/-- A word and a state for each branch, in the order of R264. -/
theorem witness_CryptErrorPriority :
    (bits 0x00070012 0 4 = 2 ∧ faulted.fault = true) ∧
    ((toy .reject 1).fault = false ∧ bits 0x00070012 4 12 ≠ 0) ∧
    (bits 0x00070002 0 4 = 2 ∧ bits 0x00070002 4 12 = 0 ∧ (toyCaps false true 0).canEnc ≠ true) ∧
    ((toy .reject 1).canEnc = true ∧ bits 0x010C0002 16 16 % (toy .reject 1).bs ≠ 0) ∧
    (bits 0x01080003 0 4 = 3 ∧ (toy .reject 1).decCapable = true ∧ bits 0x01080003 16 16 % 8 = 0 ∧
      (toy .reject 1).build.nbuf < bits 0x01080003 16 16) ∧
    (bits 0x01000002 16 16 ≤ (toy .reject 7).build.nbuf ∧ (toy .reject 7).canEnc = true ∧
      legalMode (toy .reject 7).build.ctrle (toy .reject 7).mode = false) ∧
    legalMode (toy .reject 1).build.ctrle (toy .reject 1).mode = true := by decide

/-- A word and a state for each branch, in the order of R263. -/
theorem witness_SetmodeErrorPriority :
    (bits 0x01000071 0 4 = 1 ∧ faulted.fault = true) ∧
    ((toy .reject 1).fault = false ∧ bits 0x01000071 16 16 ≠ 0 ∧ bits 0x000000F1 7 1 ≠ 0) ∧
    (bits 0x00000371 0 4 = 1 ∧ bits 0x00000371 7 1 = 0 ∧ bits 0x00000371 16 16 = 0 ∧ bits 0x00000371 4 3 = 7) ∧
    (bits 0x00000361 0 4 = 1 ∧ bits 0x00000361 4 3 = 6 ∧ (toy .reject 1).build.ctrle = .reject) ∧
    (bits 0x00000351 4 3 ≠ 0 ∧ bits 0x00000351 4 3 ≠ 7 ∧ bits 0x00000351 4 3 ≠ 6 ∧ bits 0x00000351 8 8 ≠ (toy .reject 1).bs) ∧
    (bits 0x00000851 4 3 ≠ 7 ∧ bits 0x00000851 8 8 = (toy .reject 1).bs) ∧ bits 0x0000FF01 4 3 = 0 := by decide

theorem witness_FaultStateRefusesCommands :
    faulted.fault = true ∧ ∃ t, hostAccess (.write 0x100 .w32 0) faulted = .next t ∧ t.bufByte 1 = 0 :=
  ⟨rfl, _, rfl, by decide⟩

/-- No block, one block, all of BUF, in a mode of each policy; and a decrypt-only handle of 16-byte blocks. -/
theorem witness_CryptProcessesBlocksInOrder :
    (EngineInv (toy .reject 2) ∧ Runs 0 (toy .reject 2) ∧ Runs 8 (toy .reject 2) ∧ Runs 256 (toy .reject 2) ∧
      route (toy .reject 2).build.ctrle (toy .reject 2).mode = some .pcbc ∧ (toy .reject 2).canEnc = true ∧
      (toy .reject 2).decCapable = true) ∧
    (EngineInv (toy .littleEndian 6) ∧ route (toy .littleEndian 6).build.ctrle (toy .littleEndian 6).mode = some .ctrLe) ∧
    (EngineInv (aes.setMode 1) ∧ Runs 256 (aes.setMode 1) ∧ route (aes.setMode 1).build.ctrle (aes.setMode 1).mode = some .cbc ∧
      (aes.setMode 1).decCapable = true) :=
  ⟨⟨toy_inv _ _ rfl, toy_runs _ _ (by decide) (by decide), toy_runs _ _ (by decide) (by decide),
      toy_runs _ _ (by decide) (by decide), rfl, rfl, rfl⟩,
    ⟨toy_inv _ _ rfl, rfl⟩,
    ⟨{ aes_inv with mode := by decide }, ⟨rfl, by decide, by decide⟩, rfl, rfl⟩⟩

/-- Both directions; a first part of no bytes, of one block, and of all the bytes. -/
theorem witness_CommandsSplit :
    EngineInv (toy .reject 1) ∧ Runs (0 + 256) (toy .reject 1) ∧ Runs (8 + 8) (toy .reject 1) ∧ Runs (256 + 0) (toy .reject 1) ∧
    8 % (toy .reject 1).bs = 0 ∧ (Instr.enc = Instr.enc ∧ (toy .reject 1).canEnc = true) ∧
    (Instr.dec = Instr.dec ∧ (toy .reject 1).decCapable = true) :=
  ⟨toy_inv _ _ rfl, toy_runs _ _ (by decide) (by decide), toy_runs _ _ (by decide) (by decide),
    toy_runs _ _ (by decide) (by decide), rfl, ⟨rfl, rfl⟩, ⟨rfl, rfl⟩⟩

theorem witness_EcbBlockRules : EngineInv (toy .reject 0) ∧ (toy .reject 0).mode = 0 ∧ (toy .reject 0).canEnc = true ∧
    (toy .reject 0).canDec = true := ⟨toy_inv _ _ rfl, rfl, rfl, rfl⟩

/-- With 16-byte blocks, on a decrypt-only handle. -/
theorem witness_CbcBlockRules : EngineInv (toy .reject 1) ∧ (toy .reject 1).mode = 1 ∧ (toy .reject 1).canEnc = true ∧
    EngineInv (aes.setMode 1) ∧ (aes.setMode 1).mode = 1 ∧ (aes.setMode 1).canDec = true :=
  ⟨toy_inv _ _ rfl, rfl, rfl, { aes_inv with mode := by decide }, rfl, rfl⟩

theorem witness_PcbcBlockRules : EngineInv (toy .reject 2) ∧ (toy .reject 2).mode = 2 ∧ (toy .reject 2).canEnc = true ∧
    (toy .reject 2).canDec = true := ⟨toy_inv _ _ rfl, rfl, rfl, rfl⟩

theorem witness_CfbBlockRules : EngineInv (toy .reject 3) ∧ (toy .reject 3).mode = 3 ∧ (toy .reject 3).canEnc = true ∧
    (toy .reject 3).canDec = true := ⟨toy_inv _ _ rfl, rfl, rfl, rfl⟩

theorem witness_OfbBlockRules : EngineInv (toy .reject 4) ∧ (toy .reject 4).mode = 4 ∧ (toy .reject 4).canEnc = true ∧
    (toy .reject 4).canDec = true := ⟨toy_inv _ _ rfl, rfl, rfl, rfl⟩

theorem witness_CtrBlockRules : EngineInv (toy .reject 5) ∧ (toy .reject 5).mode = 5 ∧ (toy .reject 5).canEnc = true ∧
    (toy .reject 5).canDec = true := ⟨toy_inv _ _ rfl, rfl, rfl, rfl⟩

/-- Both policies under which MODE = 6 is legal. -/
theorem witness_CtrleBlockRules :
    (EngineInv (toy .littleEndian 6) ∧ (toy .littleEndian 6).mode = 6 ∧ (toy .littleEndian 6).build.ctrle = .littleEndian ∧
      (toy .littleEndian 6).canEnc = true ∧ (toy .littleEndian 6).canDec = true) ∧
    (EngineInv (toy .ecbFallback 6) ∧ (toy .ecbFallback 6).mode = 6 ∧ (toy .ecbFallback 6).build.ctrle = .ecbFallback ∧
      (toy .ecbFallback 6).canEnc = true ∧ (toy .ecbFallback 6).canDec = true) :=
  ⟨⟨toy_inv _ _ rfl, rfl, rfl, rfl, rfl⟩, ⟨toy_inv _ _ rfl, rfl, rfl, rfl, rfl⟩⟩

/-- The last block of BUF, k = 31 of 32. -/
theorem witness_EcbBlocksAreIndependent : EngineInv (toy .reject 0) ∧ Runs 256 (toy .reject 0) ∧ (toy .reject 0).mode = 0 ∧
    (toy .reject 0).canEnc = true ∧ (toy .reject 0).canDec = true ∧ 31 < 256 / (toy .reject 0).bs :=
  ⟨toy_inv _ _ rfl, toy_runs _ _ (by decide) (by decide), rfl, rfl, rfl, by decide⟩

theorem witness_CtrKeystream : EngineInv (toy .reject 5) ∧ Runs 256 (toy .reject 5) ∧ (toy .reject 5).mode = 5 ∧
    (toy .reject 5).canEnc = true ∧ (toy .reject 5).canDec = true ∧ 31 < 256 / (toy .reject 5).bs :=
  ⟨toy_inv _ _ rfl, toy_runs _ _ (by decide) (by decide), rfl, rfl, rfl, by decide⟩

theorem witness_OfbKeystream : EngineInv (toy .reject 4) ∧ Runs 256 (toy .reject 4) ∧ (toy .reject 4).mode = 4 ∧
    (toy .reject 4).canEnc = true ∧ (toy .reject 4).canDec = true ∧ 31 < 256 / (toy .reject 4).bs :=
  ⟨toy_inv _ _ rfl, toy_runs _ _ (by decide) (by decide), rfl, rfl, rfl, by decide⟩

/-- The first block, and the last pair of blocks. -/
theorem witness_CbcDecryptChains : EngineInv (toy .reject 1) ∧ Runs 256 (toy .reject 1) ∧ (toy .reject 1).mode = 1 ∧
    (toy .reject 1).canDec = true ∧ 0 < 256 ∧ 30 + 1 < 256 / (toy .reject 1).bs :=
  ⟨toy_inv _ _ rfl, toy_runs _ _ (by decide) (by decide), rfl, rfl, by decide, by decide⟩

theorem witness_KeystreamDecryptIsEncrypt :
    (toy .reject 4).canEnc = true ∧ (toy .reject 4).canDec = true ∧ (toy .reject 4).mode = 4 ∧ (toy .reject 5).mode = 5 ∧
    ((toy .littleEndian 6).mode = 6 ∧ (toy .littleEndian 6).build.ctrle = .littleEndian) := by decide

theorem witness_RoundTrip : EngineInv (toy .reject 1) ∧ (toy .reject 1).canEnc = true ∧ (toy .reject 1).canDec = true ∧
    Runs 16 (toy .reject 1) ∧ Instr.setmodeCfb 8 ∈ setmodeRows 8 ∧
    ∃ s1, exec (.setmodeCfb 8) (toy .reject 1) = .next s1 ∧ s1.result = 0 :=
  ⟨toy_inv _ _ rfl, rfl, rfl, toy_runs _ _ (by decide) (by decide), by decide, _, rfl, rfl⟩

theorem witness_XorBlockLaws : iv0.length = 8 ∧ (zeroBlock 8).length = 8 ∧ ([] : Block).length = 0 := by decide

/-- What AnswerMatters asks of its blocks, at both block sizes. -/
theorem witness_BlockRulesMakeTheRouterCall :
    ((toy .reject 1).chain.iv.length = iv0.length ∧ (zeroBlock 8).length = iv0.length) ∧
    aes.chain.iv.length = (zeroBlock 16).length := by decide

theorem witness_DecUndoesEnc : (toy .reject 0).canEnc = true ∧ (toy .reject 0).canDec = true ∧
    iv0.length = (toy .reject 0).bs := by decide

/-- Accesses at the ends of each range: one that is refused by each check alone, and ones that pass. -/
theorem witness_BusErrorsChangeNothing :
    [Access.read 0x041 .w16, .read 0x01C .w32, .read 0x03F .w8, .write 0x070 .w8 0, .read 0x0FF .w8, .read 0x200 .w8,
      .read 0xFFFC .w32, .read 0x01B .w8, .write 0x004 .w32 0, .write 0x018 .w32 0, .write 0x050 .w8 0, .write 0x06F .w8 0].map
        (fun a => (busError 256 a).isSome) = List.replicate 12 true ∧
    [Access.read 0x018 .w32, .write 0x000 .w32 0, .write 0x040 .w8 0, .write 0x04F .w8 0, .read 0x06F .w8, .write 0x100 .w32 0,
      .write 0x1FC .w32 0].map (fun a => (busError 256 a).isSome) = List.replicate 7 false := by decide

/-- Both block sizes, and KEY_BYTES at its bound. -/
theorem witness_RegisterReads : (toy .reject 0).bs = 8 ∧ aes.bs = 16 ∧ ({ aes with keyBytes := 8191 } : State).keyBytes ≤ 8191 := by
  decide

/-- The ends of the windows: byte 7 and byte 8 of 8, byte 15 of 16, and the last byte of BUF. -/
theorem witness_WindowReads : (toy .reject 0).build.nbuf ≤ 65280 ∧ (7 < 16 ∧ 7 < (toy .reject 0).bs) ∧
    (8 < 16 ∧ (toy .reject 0).bs ≤ 8) ∧ (15 < 16 ∧ (toy .reject 0).bs ≤ 15) ∧ 15 < aes.bs ∧
    255 < (toy .reject 0).build.nbuf := by decide

/-- The first and the last address of each range, at the widest width that fits. -/
theorem witness_WideReadsUseLanes : (toy .reject 0).build.wf ∧
    (0x040 % Width.w32.bytes = 0 ∧ 0x040 ≤ 0x040 ∧ 0x040 < 0x070) ∧ (0x06C % Width.w32.bytes = 0 ∧ 0x06C < 0x070) ∧
    (0x06F % Width.w8.bytes = 0 ∧ 0x06F < 0x070) ∧ (0x100 % Width.w16.bytes = 0 ∧ 0x100 < 0x100 + (toy .reject 0).build.nbuf) ∧
    (0x1FC % Width.w32.bytes = 0 ∧ 0x1FC < 0x100 + (toy .reject 0).build.nbuf) := by decide

/-- The first and the last word of BUF, and its last byte. -/
theorem witness_BufWriteStoresLanes : (toy .reject 0).build.nbuf ≤ 65280 ∧
    (0 % Width.w32.bytes = 0 ∧ 0 + Width.w32.bytes ≤ (toy .reject 0).build.nbuf) ∧
    (252 % Width.w32.bytes = 0 ∧ 252 + Width.w32.bytes ≤ (toy .reject 0).build.nbuf) ∧
    (255 % Width.w8.bytes = 0 ∧ 255 + Width.w8.bytes ≤ (toy .reject 0).build.nbuf) := by decide

/-- The first word, a word above BS = 8, and the last byte of the window. -/
theorem witness_IvInWriteStoresLanes : (toy .reject 0).ivIn.length = (toy .reject 0).bs ∧
    (0 % Width.w32.bytes = 0 ∧ 0 < 16) ∧ (8 % Width.w32.bytes = 0 ∧ 8 < 16) ∧ (15 % Width.w8.bytes = 0 ∧ 15 < 16) := by decide

/-- A command and a store. -/
theorem witness_AccessesKeepConstants :
    (∃ t, hostAccess (.write 0x000 .w32 0x00100002) (toy .reject 1) = .next t) ∧
    (∃ t, hostAccess (.write 0x044 .w16 0xFFFF) (toy .reject 1) = .next t) := ⟨⟨_, rfl⟩, ⟨_, rfl⟩⟩

/-- A read, a store, and a write aimed at CMD that is too narrow; and a command. -/
theorem witness_OnlyCommandsWriteEngineState :
    ((∀ w, Access.read 0x050 .w8 ≠ .write 0x000 .w32 w) ∧ (∃ t, hostAccess (.read 0x050 .w8) (toy .reject 1) = .next t) ∧
      (Access.read 0x050 .w8).isWrite = false) ∧
    ((∀ w, Access.write 0x1FC .w32 7 ≠ .write 0x000 .w32 w) ∧
      ∃ t, hostAccess (.write 0x1FC .w32 7) (toy .reject 1) = .next t) ∧
    ((∀ w, Access.write 0x000 .w16 1 ≠ .write 0x000 .w32 w) ∧ ∃ t, hostAccess (.write 0x000 .w16 1) (toy .reject 1) = .next t) ∧
    (∃ t, command 0x00000811 (toy .reject 1) = .next t) :=
  ⟨⟨fun _ => Access.noConfusion, ⟨_, rfl⟩, rfl⟩, ⟨fun _ h => by injection h with h; exact absurd h (by decide), ⟨_, rfl⟩⟩,
    ⟨fun _ h => by injection h with _ h; exact absurd h (by decide), ⟨_, rfl⟩⟩, ⟨_, rfl⟩⟩

end Sys2Proof.Tests
end

