-- ==== Sys2Proof/Proofs/Adapter.lean ====
section
/-! PROOF. The adapter's transforms undo each other (00_scope.md R10): TOY by its index arithmetic, an external
cipher because its Enc is a permutation of the blocks as functions from byte indexes. -/

namespace Sys2Proof.Machine

/-! ## Blocks as functions from byte indexes -/

/-- A block is the block of its own bytes. -/
theorem blockOf_getD_self {n : Nat} {x : Block} (hx : x.length = n) : blockOf n (fun i => x.getD i 0) = x :=
  List.ext_getElem (by simp [hx]) fun i _ hi => by simp [blockOf, hi]

@[simp] theorem toFn_ofFn (n : Nat) (f : Fin n → Byte) : toFn n (ofFn n f) = f :=
  funext fun i => by rw [toFn, ofFn, blockOf_getD _ _ _ i.isLt, dif_pos i.isLt]

theorem ofFn_toFn {n : Nat} {x : Block} (hx : x.length = n) : ofFn n (toFn n x) = x :=
  calc ofFn n (toFn n x) = blockOf n (fun i => x.getD i 0) := blockOf_congr fun i hi => by simp [toFn, hi]
    _ = x := blockOf_getD_self hx

/-! ## TOY -/

/-- The two byte rotations of V-TOY undo each other. -/
theorem succ_pred_mod {n j : Nat} (hj : j < n) : ((j + (n - 1)) % n + 1) % n = j := by
  rw [Nat.mod_add_mod, show j + (n - 1) + 1 = j + n by omega, Nat.add_mod_right, Nat.mod_eq_of_lt hj]

theorem toyDec_toyEnc {n : Nat} (key : List Byte) {x : Block} (hx : x.length = n) :
    toyDec n key (toyEnc n key x) = x := by
  have byteBack : ∀ j < n, (toyEnc n key x).getD ((j + (n - 1)) % n) 0 ^^^ key.getD ((j + (n - 1)) % n) 0 =
      x.getD j 0 := by
    intro j hj
    have hi : (j + (n - 1)) % n < n := Nat.mod_lt _ (by omega)
    rw [toyEnc, blockOf_getD _ _ _ hi, succ_pred_mod hj, BitVec.xor_assoc, BitVec.xor_self, BitVec.xor_zero]
  calc toyDec n key (toyEnc n key x) = blockOf n (fun j => x.getD j 0) := blockOf_congr byteBack
    _ = x := blockOf_getD_self hx

/-! ## The adapter port -/

theorem adapterDec_adapterEnc (a : Config.Adapter) {n : Nat} (schedule : List Byte) {x : Block} (hx : x.length = n) :
    adapterDec a true n schedule (adapterEnc a true n schedule x) = x := by
  cases a with
  | toy => exact toyDec_toyEnc schedule hx
  | external id _ => simp [adapterDec, adapterEnc, ofFn_toFn hx]

theorem State.dec_enc {s : State} (he : s.canEnc = true) (hd : s.canDec = true) {x : Block} (hx : x.length = s.bs) :
    s.dec (s.enc x) = x := by
  have both : (s.canEnc && s.canDec) = true := by rw [he, hd, Bool.and_self]
  rw [State.dec, State.enc, both]
  exact adapterDec_adapterEnc s.adapter s.schedule hx

end Sys2Proof.Machine

namespace Sys2Proof.Proofs

open Sys2Proof.Machine

/-- Settles O49: the lengths are R186's, the inverse law is R10's over both kinds of adapter. -/
theorem decUndoesEnc : Obligations.DecUndoesEnc :=
  fun s x => ⟨s.enc_length x, s.dec_length x, fun he hd hx => State.dec_enc he hd hx⟩

end Sys2Proof.Proofs
end

