-- ==== Sys2Proof/Proofs/Steps.lean ====
section
/-! PROOF. Who writes which element of the state (10_state.md R25 to R34, R48): one inversion of a command word, one of
an access and one of a step, and from them the invariant of every step and of every run. -/

namespace Sys2Proof.Machine

/-! ## A command word -/

/-- The effect of the SETMODE row of a MODE field is SET_MODE of its code (30_encoding.md R95). -/
theorem effect_setmodeRow {m : Nat} (hm : m < 8) (ivlen : Nat) :
    effect (setmodeRow m ivlen) = setMode (BitVec.ofNat 3 m) ivlen := by
  interval_cases m <;> rfl

/-- All that a command word can do: fail with a code, SET_MODE, or ENCRYPT or DECRYPT. -/
theorem command_cases {w : Word} {s u : State} (h : command w s = .next u) :
    (∃ e, e ≠ .ok ∧ u = s.setResult e) ∨
    (s.fault = false ∧ bits w 0 4 = 1 ∧ u = setMode (BitVec.ofNat 3 (bits w 4 3)) (bits w 8 8) s) ∨
    (s.fault = false ∧ (bits w 0 4 = 2 ∨ bits w 0 4 = 3) ∧ ∃ d, u = crypt d (bits w 16 16) s) := by
  rcases Bool.eq_false_or_eq_true s.fault with hf | hf
  · rw [command_of_fault hf] at h
    cases h
    exact .inl ⟨.eFault, by decide, rfl⟩
  · rw [command_of_noFault hf, wordEffect] at h
    cases hd : decode w with
    | error e =>
      rw [hd] at h
      cases h
      exact .inl ⟨.eCmd, by decide, rfl⟩
    | ok i =>
      rw [hd] at h
      cases h
      rcases decode_ok hd with ⟨hop, -, -, rfl⟩ | ⟨hop, -, rfl⟩ | ⟨hop, -, rfl⟩
      · exact .inr (.inl ⟨hf, hop, congrFun (effect_setmodeRow (bits_lt w 4 3) _) s⟩)
      · exact .inr (.inr ⟨hf, .inl hop, .encrypt, rfl⟩)
      · exact .inr (.inr ⟨hf, .inr hop, .decrypt, rfl⟩)

/-- The part of the state that no command writes; the elements a command may write are blanked. -/
def State.unwritten (s : State) : State :=
  { s with mode := 0, iv := [], ctr := [], result := 0, fault := false, buf := [] }

theorem setMode_unwritten (m : BitVec 3) (ivlen : Nat) (s : State) : (setMode m ivlen s).unwritten = s.unwritten := by
  rcases setMode_cases m ivlen s with ⟨e, -, -, -, he⟩ | ⟨-, he⟩ | ⟨-, -, -, -, he⟩ <;>
    rw [he]
  · rfl
  · simp only [armEcb_eq, State.unwritten]
  · simp only [armIv_eq, State.unwritten]

theorem crypt_unwritten (d : Dir) (len : Nat) (s : State) : (crypt d len s).unwritten = s.unwritten := by
  rcases crypt_cases d len s with ⟨e, -, -, -, he⟩ | ⟨-, -, he⟩ | ⟨p, -, -, he⟩ <;> rw [he]
  · rfl
  · rfl
  · exact runBlocks_keeps State.unwritten d p (fun _ _ => rfl) _ _ s

/-- A command leaves the constants, the flags, S, the adapter, the build and IV_IN alone (10_state.md R27, R33, R34;
43_configuration.md R219). -/
theorem command_unwritten {w : Word} {s u : State} (h : command w s = .next u) : u.unwritten = s.unwritten := by
  rcases command_cases h with ⟨e, -, rfl⟩ | ⟨-, -, rfl⟩ | ⟨-, -, d, rfl⟩
  · rfl
  · exact setMode_unwritten _ _ s
  · exact crypt_unwritten d _ s

/-! ## MODE -/

/-- SET_MODE keeps MODE or succeeds and records its code (43_configuration.md R210, R216). -/
theorem setMode_mode (m : BitVec 3) (ivlen : Nat) (s : State) :
    (setMode m ivlen s).mode = s.mode ∨ ((setMode m ivlen s).mode = m ∧ (setMode m ivlen s).result = 0) := by
  rcases setMode_cases m ivlen s with ⟨e, -, -, -, he⟩ | ⟨rfl, he⟩ | ⟨-, -, -, -, he⟩ <;> rw [he]
  · exact .inl rfl
  · exact .inr ⟨rfl, rfl⟩
  · exact .inr ⟨rfl, rfl⟩

@[simp] theorem crypt_mode (d : Dir) (len : Nat) (s : State) : (crypt d len s).mode = s.mode := by
  rcases crypt_cases d len s with ⟨e, -, -, -, he⟩ | ⟨-, -, he⟩ | ⟨p, -, -, he⟩ <;> rw [he]
  · rfl
  · rfl
  · exact runBlocks_mode d p _ _ s

/-- A command that changes MODE is a successful SET_MODE of the word's MODE field (10_state.md R25). -/
theorem command_mode {w : Word} {s u : State} (h : command w s = .next u) :
    u.mode = s.mode ∨ (s.fault = false ∧ bits w 0 4 = 1 ∧ bits w 4 3 = u.mode.toNat ∧ u.result = 0) := by
  rcases command_cases h with ⟨e, -, rfl⟩ | ⟨hf, hop, rfl⟩ | ⟨-, -, d, rfl⟩
  · exact .inl rfl
  · rcases setMode_mode (BitVec.ofNat 3 (bits w 4 3)) (bits w 8 8) s with hm | ⟨hm, hr⟩
    · exact .inl hm
    · refine .inr ⟨hf, hop, ?_, hr⟩
      rw [hm, BitVec.toNat_ofNat, Nat.mod_eq_of_lt (bits_lt w 4 3)]
  · exact .inl (crypt_mode d _ s)

/-! ## CTR -/

theorem route_eq_ctr {policy : Config.CtrlePolicy} {m : BitVec 3} (h : route policy m = some .ctr) : m = 5 := by
  revert m; cases policy <;> decide

theorem route_eq_ctrLe {policy : Config.CtrlePolicy} {m : BitVec 3} (h : route policy m = some .ctrLe) :
    m = 6 ∧ policy = .littleEndian := by
  revert m; cases policy <;> decide

theorem setMode_ctr (m : BitVec 3) (ivlen : Nat) (s : State) :
    (setMode m ivlen s).ctr = s.ctr ∨ (setMode m ivlen s).ctr = zeroBlock s.bs := by
  rcases setMode_cases m ivlen s with ⟨e, -, -, -, he⟩ | ⟨-, he⟩ | ⟨-, -, -, -, he⟩ <;> rw [he]
  · exact .inl rfl
  · exact .inr rfl
  · exact .inr rfl

/-- c is what a counter mode counts CTR on to over n blocks (10_state.md R48). -/
def Counted (s : State) (n : Nat) (c : Block) : Prop :=
  (s.mode = 5 ∧ c = incBe^[n] s.ctr) ∨ (s.mode = 6 ∧ s.build.ctrle = .littleEndian ∧ c = incLe^[n] s.ctr)

/-- Of the router's rows only CTR and CTR-LE under LITTLE_ENDIAN move CTR (42_datapath.md R190). -/
theorem count_iterate {s : State} {p : Route} (hp : route s.build.ctrle s.mode = some p) (n : Nat) :
    p.count^[n] s.ctr = s.ctr ∨ Counted s n (p.count^[n] s.ctr) := by
  cases p
  case ctr => exact .inr (.inl ⟨route_eq_ctr hp, rfl⟩)
  case ctrLe => exact .inr (.inr ⟨(route_eq_ctrLe hp).1, (route_eq_ctrLe hp).2, rfl⟩)
  all_goals exact .inl (congrFun (Function.iterate_id n) s.ctr)

theorem crypt_ctr (d : Dir) (len : Nat) (s : State) :
    (crypt d len s).ctr = s.ctr ∨ Counted s (len / s.bs) (crypt d len s).ctr := by
  rcases crypt_cases d len s with ⟨e, -, -, -, he⟩ | ⟨-, -, he⟩ | ⟨p, -, hp, he⟩ <;> rw [he]
  · exact .inl rfl
  · exact .inl rfl
  · rw [State.setResult_ctr, runBlocks_ctr]
    exact count_iterate hp _

/-- All that a command can do to CTR (10_state.md R48). -/
theorem command_ctr {w : Word} {s u : State} (h : command w s = .next u) :
    u.ctr = s.ctr ∨ (bits w 0 4 = 1 ∧ u.ctr = zeroBlock u.bs) ∨
    ((bits w 0 4 = 2 ∨ bits w 0 4 = 3) ∧ Counted s (bits w 16 16 / s.bs) u.ctr) := by
  have hbs : u.bs = s.bs := (congrArg State.bs (command_unwritten h) :)
  rw [hbs]
  rcases command_cases h with ⟨e, -, rfl⟩ | ⟨-, hop, rfl⟩ | ⟨-, hop, d, rfl⟩
  · exact .inl rfl
  · exact (setMode_ctr _ _ s).imp_right fun hc => .inl ⟨hop, hc⟩
  · exact (crypt_ctr d _ s).imp_right fun hc => .inr ⟨hop, hc⟩

/-! ## One access -/

/-- An access is a CMD write, or writes IV_IN and BUF alone, and these not by a read (20_memory.md R64, R65). -/
theorem hostAccess_writers {a : Access} {s t : State} (h : hostAccess a s = .next t) :
    (∃ w u, a = .write 0x000 .w32 w ∧ command w s = .next u ∧ t = u.setAnswer .written) ∨
    (t = { s with ivIn := t.ivIn, buf := t.buf, answer := t.answer } ∧
      (a.isWrite = false → t.ivIn = s.ivIn ∧ t.buf = s.buf)) := by
  rcases hostAccess_cases a s with ⟨-, he⟩ | ⟨_, _, -, -, he⟩ | ⟨w, hw, he⟩ | ⟨addr, w, v, rfl, -, -, he⟩ <;>
    rw [h] at he <;> cases he
  · exact .inr ⟨rfl, fun _ => ⟨rfl, rfl⟩⟩
  · exact .inr ⟨rfl, fun _ => ⟨rfl, rfl⟩⟩
  · exact .inl ⟨w, _, hw, command_next w s, rfl⟩
  · exact .inr ⟨congrArg (fun u => u.setAnswer .written) (storeLanes_frame addr.toNat v w.bytes 0 s),
      fun hr => by cases hr⟩

/-! ## One step -/

/-- All the turns of the port that end in a next state (70_reset_and_hazards.md R306). -/
theorem step_cases {s t : State} (h : step s = .next t) :
    (s.port = [] ∧ t = s) ∨
    (∃ a rest, s.port = .access a :: rest ∧ hostAccess a (s.setPort rest) = .next t) ∨
    (∃ i rest, s.port = .construct i :: rest ∧ i.legal = true ∧ t = constructed s.build (s.draw + 1) rest i) ∨
    (∃ rest, s.port = .release :: rest ∧ t = s.setPort rest) := by
  rcases hp : s.port with - | ⟨e, rest⟩
  · rw [step_idle hp] at h
    cases h
    exact .inl ⟨rfl, rfl⟩
  · rw [step_cons hp] at h
    cases e with
    | access a => exact .inr (.inl ⟨a, rest, rfl, h⟩)
    | construct i =>
      simp only [serve, construct] at h
      by_cases hi : i.legal = true
      · rw [if_pos hi] at h
        cases h
        exact .inr (.inr (.inl ⟨i, rest, rfl, hi, rfl⟩))
      · rw [if_neg hi] at h
        cases h
    | release =>
      cases h
      exact .inr (.inr (.inr ⟨rest, rfl, rfl⟩))
    | accessDuringConstruction a => cases h

/-- A step runs a command word, constructs, or writes IV_IN, BUF and the port's own fields alone. -/
theorem step_writers {s t : State} (h : step s = .next t) :
    (∃ w rest u, s.port = .access (.write 0x000 .w32 w) :: rest ∧ command w (s.setPort rest) = .next u ∧
      t = u.setAnswer .written) ∨
    (∃ i rest, s.port = .construct i :: rest ∧ t = constructed s.build (s.draw + 1) rest i) ∨
    t = { s with ivIn := t.ivIn, buf := t.buf, port := t.port, answer := t.answer } := by
  rcases step_cases h with ⟨-, rfl⟩ | ⟨a, rest, hp, ha⟩ | ⟨i, rest, hp, -, rfl⟩ | ⟨rest, -, rfl⟩
  · exact .inr (.inr rfl)
  · rcases hostAccess_writers ha with ⟨w, u, rfl, hu, ht⟩ | ⟨ht, -⟩
    · exact .inl ⟨w, rest, u, hp, hu, ht⟩
    · exact .inr (.inr (by rw [ht]; rfl))
  · exact .inr (.inl ⟨i, rest, hp, rfl⟩)
  · exact .inr (.inr rfl)

/-- One step keeps the invariant. -/
theorem EngineInv.step {s t : State} (h : EngineInv s) (ht : Machine.step s = .next t) : EngineInv t := by
  rcases step_cases ht with ⟨-, rfl⟩ | ⟨a, rest, -, ha⟩ | ⟨i, rest, -, hi, rfl⟩ | ⟨rest, -, rfl⟩
  · exact h
  · exact (h.setPort rest).hostAccess a ha
  · exact constructed_inv h.build _ rest hi
  · exact h.setPort rest

/-- What every step of a machine keeps, every run keeps. -/
theorem run_keeps {M : Host.Core} {P : M.State → Prop} (hstep : ∀ s t, P s → M.step s = .next t → P t) {k : Nat}
    {s t : M.State} (hs : P s) (h : M.run k s = .next t) : P t := by
  induction k generalizing s with
  | zero => cases h; exact hs
  | succ k ih =>
    rw [Host.Core.run] at h
    cases he : M.step s with
    | next u =>
      rw [he] at h
      exact ih (hstep s u hs he) h
    | fault r => rw [he] at h; cases h
    | refused r => rw [he] at h; cases h

end Sys2Proof.Machine

namespace Sys2Proof.Proofs

open Sys2Proof.Machine

/-- Settles O2: the reset state is the construction of TOY, which R290 does not refuse. -/
theorem invariantHoldsAtReset : Obligations.InvariantHoldsAtReset :=
  constructed_inv (b := Config.Build.standard) (by decide) 0 [] (i := toyInputs) (by decide)

/-- Settles O3, by the turns of the port: an access, a construction, a release, or none. -/
theorem stepKeepsInvariant : Obligations.StepKeepsInvariant :=
  fun _ _ h ht => h.step ht

/-- Settles O4: the invariant holds after construction and along every run, and says what R26 and R47 say. -/
theorem reachableStatesAreLegal : Obligations.ReachableStatesAreLegal := by
  intro b n p i s t k hb hs hrun
  have hs' : EngineInv s := by
    unfold construct at hs
    split at hs
    · cases hs; exact constructed_inv hb n p ‹_›
    · cases hs
  have ht : EngineInv t := run_keeps (M := core) (fun _ _ h ht => EngineInv.step h ht) hs' hrun
  exact ⟨legalMode_iff.mp ht.mode, ht.ivBytes, ht.ctrBytes⟩

/-- Settles O13: the word is at offset 0, which passes every check and names CMD. -/
theorem stepRunsDecodedCommand : Obligations.StepRunsDecodedCommand := by
  intro s w i rest hp hd
  rw [step_cons hp, serve, hostAccess_command, command, hd]
  rfl

/-- Settles O23: a step that runs no command and constructs nothing keeps MODE, and of the commands only SET_MODE
writes it. -/
theorem modeHasTwoWriters : Obligations.ModeHasTwoWriters := by
  intro s t h hne
  rcases step_writers h with ⟨w, rest, u, hp, hu, rfl⟩ | ⟨i, rest, hp, rfl⟩ | ht
  · rcases command_mode hu with hm | ⟨hf, hop, hm, hr⟩
    · exact absurd hm hne
    · exact .inl ⟨w, rest, hp, hf, hop, hm, hr⟩
  · exact .inr ⟨i, rest, hp, rfl⟩
  · exact absurd (congrArg State.mode ht :) hne

/-- Settles O24: a step that runs no command and constructs nothing keeps CTR, and a command does what `command_ctr`
lists. -/
theorem ctrHasThreeWriters : Obligations.CtrHasThreeWriters := by
  intro s t h
  rcases step_writers h with ⟨w, rest, u, hp, hu, rfl⟩ | ⟨i, rest, hp, rfl⟩ | ht
  · rcases command_ctr hu with hc | ⟨hop, hc⟩ | ⟨hop, hc⟩
    · exact .inl hc
    · exact .inr (.inl ⟨hc, .inl ⟨w, rest, hp, hop⟩⟩)
    · exact .inr (.inr ⟨w, rest, hp, hop, hc⟩)
  · exact .inr (.inl ⟨rfl, .inr ⟨i, rest, hp⟩⟩)
  · rw [ht]
    exact .inl rfl

/-- Settles O57: a command leaves these fields in the part it never writes, and any other access writes none of them. -/
theorem accessesKeepConstants : Obligations.AccessesKeepConstants := by
  intro a s t h
  rcases hostAccess_writers h with ⟨w, u, -, hu, rfl⟩ | ⟨ht, -⟩
  · have hk := command_unwritten hu
    simp only [State.unwritten, State.mk.injEq] at hk
    tauto
  · rw [ht]
    exact ⟨rfl, rfl, rfl, rfl, rfl, rfl, rfl, rfl⟩

/-- Settles O58: an access that is no CMD write writes IV_IN and BUF alone, and IV_IN is in the part no command writes. -/
theorem onlyCommandsWriteEngineState : Obligations.OnlyCommandsWriteEngineState := by
  refine ⟨fun a s t hne h => ?_, fun w s t h => (congrArg State.ivIn (command_unwritten h) :)⟩
  rcases hostAccess_writers h with ⟨w, u, rfl, -, -⟩ | ⟨ht, hread⟩
  · exact absurd rfl (hne w)
  · refine ⟨?_, ?_, ?_, ?_, ?_, hread⟩ <;> rw [ht]

end Sys2Proof.Proofs
end

