-- ==== Sys2Proof/Proofs/Reads.lean ====
section
/-! PROOF. What a read of the port answers (10_state.md R36 to R44; 20_memory.md R63, R66): the word registers whole, the
windows byte by byte, and nothing of the schedule. -/

namespace Sys2Proof.Machine

/-! ## Reads as answers -/

/-- The answer to a read (20_memory.md R63, R66). -/
def State.readAnswer (s : State) (a : Addr) (w : Width) : Answer :=
  match busError s.build.nbuf (.read a w) with
  | some _ => .busError
  | none => { error := false, data := s.readWord a.toNat w }

/-- A read answers and does nothing else (20_memory.md R64). -/
theorem hostAccess_read (a : Addr) (w : Width) (s : State) :
    hostAccess (.read a w) s = .next (s.setAnswer (s.readAnswer a w)) := by
  unfold hostAccess State.readAnswer
  cases busError s.build.nbuf (.read a w) <;> rfl

theorem readAnswer_of_noBusError {a : Addr} {w : Width} {s : State} (h : busError s.build.nbuf (.read a w) = none) :
    s.readAnswer a w = { error := false, data := s.readWord a.toNat w } := by
  rw [State.readAnswer, h]

/-! ## Words and their lanes -/

/-- The fields of a word given by its number. -/
theorem bits_ofNat {n : Nat} (hn : n < 2 ^ 32) (lo len : Nat) :
    bits (BitVec.ofNat 32 n) lo len = n / 2 ^ lo % 2 ^ len := by
  rw [bits, BitVec.toNat_ofNat, Nat.mod_eq_of_lt hn]

theorem lane_toNat (v : Word) (j : Nat) : (lane v j).toNat = v.toNat / 2 ^ (8 * j) % 2 ^ 8 := by
  rw [lane, BitVec.toNat_ofNat, bits, Nat.mod_mod]

/-- The lanes of a word sum up to it (20_memory.md R63). -/
theorem laneSum_lanes (v : Word) : laneSum (blockOf 4 (lane v)) = v.toNat := by
  have hv := v.isLt
  have hl : blockOf 4 (lane v) = [lane v 0, lane v 1, lane v 2, lane v 3] := rfl
  simp only [hl, laneSum, lane_toNat]
  omega

/-! ## The word registers -/

/-- The offset of a word register (10_state.md R36). -/
def Reg.offset : Reg → Nat
  | .cmd => 0x000
  | .status => 0x004
  | .modeReg => 0x008
  | .cap => 0x00C
  | .cipher => 0x010
  | .blkSz => 0x014
  | .keySz => 0x018

theorem Reg.offset_le (r : Reg) : r.offset ≤ 0x018 := by cases r <;> decide

theorem Reg.offset_aligned (r : Reg) : r.offset % 4 = 0 := by cases r <;> rfl

/-- The four bytes of a word register lie at its offset. -/
theorem region_offset (nbuf : Nat) (r : Reg) {j : Nat} (hj : j < 4) : region nbuf (r.offset + j) = .reg r := by
  cases r <;> interval_cases j <;> rfl

theorem readWord_offset (s : State) (r : Reg) : s.readWord r.offset .w32 = s.regWord r := by
  have hbyte : ∀ j < 4, s.portByte (r.offset + j) = lane (s.regWord r) j := by
    intro j hj
    have hmod : (r.offset + j) % 4 = j := by have := r.offset_aligned; omega
    rw [State.portByte, region_offset _ r hj, hmod]
  rw [State.readWord, Width.bytes, blockOf_congr hbyte, laneSum_lanes, BitVec.ofNat_toNat, BitVec.setWidth_eq]

/-- The 32-bit read of a word register gives its word (10_state.md R37 to R42). -/
theorem hostAccess_readReg (s : State) (r : Reg) :
    hostAccess (.read (BitVec.ofNat 16 r.offset) .w32) s = .next (s.setAnswer { error := false, data := s.regWord r }) := by
  have hle := r.offset_le
  have hal := r.offset_aligned
  have haddr : (BitVec.ofNat 16 r.offset).toNat = r.offset := by
    rw [BitVec.toNat_ofNat, Nat.mod_eq_of_lt (by omega)]
  have hok : busError s.build.nbuf (.read (BitVec.ofNat 16 r.offset) .w32) = none := by
    rw [busError_eq_none]
    simp only [Access.addr, Access.width, Access.isWrite, Width.bytes, haddr]
    exact ⟨hal, by omega, by simp, by simp⟩
  rw [hostAccess_read, readAnswer_of_noBusError hok, haddr, readWord_offset]

theorem bitNat_le (b : Bool) : bitNat b ≤ 1 := by cases b <;> decide

theorem bitNat_eq_one {b : Bool} : bitNat b = 1 ↔ b = true := by cases b <;> decide

theorem statusWord_bits (s : State) : bits s.statusWord 0 4 = s.result.toNat ∧ bits s.statusWord 4 4 = 0 ∧
    (bits s.statusWord 8 1 = 1 ↔ s.fault = true) ∧ bits s.statusWord 9 23 = 0 := by
  have hr := s.result.isLt
  have hf := bitNat_le s.fault
  have hn : s.result.toNat + 2 ^ 8 * bitNat s.fault < 2 ^ 32 := by omega
  rw [State.statusWord, ← bitNat_eq_one]
  simp only [bits_ofNat hn]
  omega

theorem modeWord_bits (s : State) : bits s.modeWord 0 3 = s.mode.toNat ∧ bits s.modeWord 3 29 = 0 := by
  have hm := s.mode.isLt
  have hn : s.mode.toNat < 2 ^ 32 := by omega
  rw [State.modeWord]
  simp only [bits_ofNat hn]
  omega

theorem capWord_bits (s : State) : (bits s.capWord 0 1 = 1 ↔ s.canEnc = true) ∧
    (bits s.capWord 1 1 = 1 ↔ s.canDec = true) ∧ bits s.capWord 2 30 = 0 := by
  have he := bitNat_le s.canEnc
  have hd := bitNat_le s.canDec
  have hn : bitNat s.canEnc + 2 * bitNat s.canDec < 2 ^ 32 := by omega
  rw [State.capWord, ← bitNat_eq_one, ← bitNat_eq_one]
  simp only [bits_ofNat hn]
  omega

theorem cipherWord_bits (s : State) : bits s.cipherWord 0 8 = s.cipherId.toNat ∧ bits s.cipherWord 8 24 = 0 := by
  have hc := s.cipherId.isLt
  have hn : s.cipherId.toNat < 2 ^ 32 := by omega
  rw [State.cipherWord]
  simp only [bits_ofNat hn]
  omega

theorem wordOfHalves_bits {low high : Nat} (hl : low < 2 ^ 16) (hh : high < 2 ^ 16) :
    bits (wordOfHalves low high) 0 16 = low ∧ bits (wordOfHalves low high) 16 16 = high := by
  have hn : low % 2 ^ 16 + 2 ^ 16 * (high % 2 ^ 16) < 2 ^ 32 := by omega
  rw [wordOfHalves]
  simp only [bits_ofNat hn]
  omega

/-! ## The windows -/

/-- An aligned read of IV_IN, IVVIEW, CTRVIEW or BUF passes the checks and gives the bytes at its address
(20_memory.md R66). -/
theorem hostAccess_readWindow {s : State} (hn : s.build.nbuf ≤ 65280) {a : Nat} {w : Width} (hw : a % w.bytes = 0)
    (h0 : 0x040 ≤ a) (h : a < 0x070 ∨ (0x100 ≤ a ∧ a < 0x100 + s.build.nbuf)) :
    hostAccess (.read (BitVec.ofNat 16 a) w) s = .next (s.setAnswer { error := false, data := s.readWord a w }) := by
  have haddr : (BitVec.ofNat 16 a).toNat = a := by rw [BitVec.toNat_ofNat, Nat.mod_eq_of_lt (by omega)]
  have hok : busError s.build.nbuf (.read (BitVec.ofNat 16 a) w) = none := by
    rw [busError_eq_none]
    simp only [Access.addr, Access.width, Access.isWrite, haddr]
    exact ⟨hw, by omega, by omega, by simp⟩
  rw [hostAccess_read, readAnswer_of_noBusError hok, haddr]

/-- An 8-bit read gives its byte, zero-extended (20_memory.md R63). -/
theorem readWord_w8 (s : State) (a : Nat) : s.readWord a .w8 = (s.portByte a).setWidth 32 := by
  have hl : blockOf 1 (fun j => s.portByte (a + j)) = [s.portByte a] := rfl
  rw [State.readWord, Width.bytes, hl, laneSum, laneSum, Nat.mul_zero, Nat.add_zero, BitVec.ofNat_toNat]

/-- The 8-bit read of a window gives the byte there. -/
theorem hostAccess_readByte {s : State} (hn : s.build.nbuf ≤ 65280) {a : Nat} (h0 : 0x040 ≤ a)
    (h : a < 0x070 ∨ (0x100 ≤ a ∧ a < 0x100 + s.build.nbuf)) :
    hostAccess (.read (BitVec.ofNat 16 a) .w8) s =
      .next (s.setAnswer { error := false, data := (s.portByte a).setWidth 32 }) := by
  rw [hostAccess_readWindow hn (Nat.mod_one a) h0 h, readWord_w8]

variable (s : State) {i : Nat}

theorem portByte_ivIn (hi : i < 16) : s.portByte (0x040 + i) = windowByte s.bs s.ivIn i := by
  rw [State.portByte, region_ivIn hi]

theorem portByte_ivView (hi : i < 16) : s.portByte (0x050 + i) = windowByte s.bs s.iv i := by
  rw [State.portByte, region_ivView hi]

theorem portByte_ctrView (hi : i < 16) : s.portByte (0x060 + i) = windowByte s.bs s.ctr i := by
  rw [State.portByte, region_ctrView hi]

theorem portByte_buf (hi : i < s.build.nbuf) : s.portByte (0x100 + i) = s.bufByte i := by
  rw [State.portByte, region_buf hi]

/-- The 8-bit reads of byte i of the three windows over a BS-byte register (10_state.md R43, R44; 20_memory.md R67). -/
theorem hostAccess_readWindowBytes (hn : s.build.nbuf ≤ 65280) (hi : i < 16) :
    hostAccess (.read (BitVec.ofNat 16 (0x040 + i)) .w8) s =
      .next (s.setAnswer { error := false, data := (windowByte s.bs s.ivIn i).setWidth 32 }) ∧
    hostAccess (.read (BitVec.ofNat 16 (0x050 + i)) .w8) s =
      .next (s.setAnswer { error := false, data := (windowByte s.bs s.iv i).setWidth 32 }) ∧
    hostAccess (.read (BitVec.ofNat 16 (0x060 + i)) .w8) s =
      .next (s.setAnswer { error := false, data := (windowByte s.bs s.ctr i).setWidth 32 }) := by
  rw [← portByte_ivIn s hi, ← portByte_ivView s hi, ← portByte_ctrView s hi]
  refine ⟨?_, ?_, ?_⟩ <;> exact hostAccess_readByte hn (by omega) (by omega)

/-! ## The schedule -/

/-- The answer to a read is made of what a read can see; S and the adapter are not in it (10_state.md R34). -/
theorem readAnswer_schedule (adapter : Config.Adapter) (schedule : List Byte) (a : Addr) (w : Width) :
    ({ s with adapter := adapter, schedule := schedule } : State).readAnswer a w = s.readAnswer a w := by
  have hbyte : ({ s with adapter := adapter, schedule := schedule } : State).portByte = s.portByte := by
    funext x
    unfold State.portByte
    cases region s.build.nbuf x with
    | reg r => cases r <;> rfl
    | _ => rfl
  unfold State.readAnswer State.readWord
  rw [hbyte]

end Sys2Proof.Machine

namespace Sys2Proof.Proofs

open Sys2Proof.Machine

/-- Settles O52: every word register is read whole, and its word's fields are those of its definition. -/
theorem registerReads : Obligations.RegisterReads := by
  intro s hbs hkey
  have hblk : s.bs < 2 ^ 16 ∧ 8 * s.bs < 2 ^ 16 := by omega
  have hks : s.keyBytes < 2 ^ 16 ∧ 8 * s.keyBytes < 2 ^ 16 := by omega
  exact ⟨hostAccess_readReg s .cmd, ⟨_, hostAccess_readReg s .status, statusWord_bits s⟩,
    ⟨_, hostAccess_readReg s .modeReg, modeWord_bits s⟩, ⟨_, hostAccess_readReg s .cap, capWord_bits s⟩,
    ⟨_, hostAccess_readReg s .cipher, cipherWord_bits s⟩,
    ⟨_, hostAccess_readReg s .blkSz, wordOfHalves_bits hblk.1 hblk.2⟩,
    ⟨_, hostAccess_readReg s .keySz, wordOfHalves_bits hks.1 hks.2⟩⟩

/-- Settles O53: an 8-bit read gives the byte of the window, which is 0 at and above BS. -/
theorem windowReads : Obligations.WindowReads := by
  intro s hn
  refine ⟨fun i hi hbs => ?_, fun i hi hbs => ?_, fun off hoff => ?_⟩
  · have hr := hostAccess_readWindowBytes s hn hi
    simp only [windowByte, if_pos hbs] at hr
    exact hr
  · have hr := hostAccess_readWindowBytes s hn hi
    simp only [windowByte, if_neg (Nat.not_lt.mpr hbs)] at hr
    exact hr
  · have hr := hostAccess_readByte hn (a := 0x100 + off) (by omega) (by omega)
    rw [portByte_buf s hoff] at hr
    exact hr

/-- Settles O59: the answer to a read contains neither S nor the adapter. -/
theorem scheduleIsHiddenFromReads : Obligations.ScheduleIsHiddenFromReads := by
  intro a w s adapter schedule
  refine ⟨s.readAnswer a w, hostAccess_read a w s, ?_⟩
  rw [hostAccess_read, readAnswer_schedule]
  rfl

end Sys2Proof.Proofs
end

