-- ==== Sys2Proof/Proofs/Windows.lean ====
section
/-! PROOF. What an access does through the windows (20_memory.md R63 to R67): the lanes of a wide read, and the lanes a
write stores in BUF and in IV_IN. -/

namespace Sys2Proof.Machine

/-! ## Aligned accesses -/

theorem Width.bytes_pos (w : Width) : 0 < w.bytes := by cases w <;> decide

theorem Width.bytes_le (w : Width) : w.bytes ≤ 4 := by cases w <;> decide

/-- An aligned access that begins below a multiple of 16 ends at or below it, so it lies wholly inside its window
(20_memory.md R63). -/
theorem Width.aligned_end_le {w : Width} {a m : Nat} (ha : a % w.bytes = 0) (hm : m % 16 = 0) (h : a < m) :
    a + w.bytes ≤ m := by
  cases w <;> simp only [Width.bytes] at ha ⊢ <;> omega

/-- The windows begin at multiples of 16, so the alignment of an access is that of its index. -/
theorem Width.aligned_add {w : Width} {base i : Nat} (hb : base % 16 = 0) (hi : i % w.bytes = 0) :
    (base + i) % w.bytes = 0 := by
  cases w <;> simp only [Width.bytes] at hi ⊢ <;> omega

/-! ## The lanes of a read -/

theorem laneSum_lt (l : List Byte) : laneSum l < 256 ^ l.length := by
  induction l with
  | nil => decide
  | cons b l ih =>
    have hb := b.isLt
    rw [laneSum, List.length_cons, pow_succ]
    omega

/-- Byte j of a sum of lanes is the byte put on lane j (20_memory.md R63). -/
theorem laneSum_byte (l : List Byte) (j : Nat) : laneSum l / 2 ^ (8 * j) % 2 ^ 8 = (l.getD j 0).toNat := by
  induction l generalizing j with
  | nil => simp [laneSum]
  | cons b l ih =>
    have hb := b.isLt
    cases j with
    | zero => simp only [laneSum, List.getD_cons_zero]; omega
    | succ j =>
      have hpow : 2 ^ (8 * (j + 1)) = 2 ^ 8 * 2 ^ (8 * j) := by rw [← pow_add]; congr 1; omega
      have hdiv : (b.toNat + 2 ^ 8 * laneSum l) / 2 ^ 8 = laneSum l := by omega
      rw [laneSum, List.getD_cons_succ, ← ih j, hpow, ← Nat.div_div_eq_div_mul, hdiv]

theorem State.readWord_toNat (s : State) (a : Nat) (w : Width) :
    (s.readWord a w).toNat = laneSum (blockOf w.bytes (fun j => s.portByte (a + j))) := by
  have hlt := laneSum_lt (blockOf w.bytes (fun j => s.portByte (a + j)))
  rw [blockOf_length] at hlt
  have hle : 256 ^ w.bytes ≤ 256 ^ 4 := Nat.pow_le_pow_right (by decide) w.bytes_le
  rw [State.readWord, BitVec.toNat_ofNat, Nat.mod_eq_of_lt (by omega)]

/-- A read of width w is zero above its lanes (20_memory.md R63). -/
theorem State.readWord_lt (s : State) (a : Nat) (w : Width) : (s.readWord a w).toNat < 256 ^ w.bytes := by
  rw [State.readWord_toNat]
  exact (laneSum_lt _).trans_eq (by rw [blockOf_length])

/-- Lane j of a read is the byte at a + j (20_memory.md R63). -/
theorem State.lane_readWord (s : State) (a : Nat) {w : Width} {j : Nat} (hj : j < w.bytes) :
    lane (s.readWord a w) j = s.portByte (a + j) := by
  apply BitVec.eq_of_toNat_eq
  rw [lane_toNat, State.readWord_toNat, laneSum_byte, blockOf_getD _ _ _ hj]

/-- The answer to the access before is nothing that a read sees (20_memory.md R64). -/
@[simp] theorem State.readAnswer_setAnswer (s : State) (x : Answer) (a : Addr) (w : Width) :
    (s.setAnswer x).readAnswer a w = s.readAnswer a w := rfl

/-! ## The lanes of a write -/

/-- An aligned write to IV_IN or BUF passes the checks, stores its lanes and is acknowledged (20_memory.md R66). -/
theorem hostAccess_writeWindow {s : State} {a : Nat} {w : Width} (v : Word) (hlt : a < 2 ^ 16) (hw : a % w.bytes = 0)
    (h : (0x040 ≤ a ∧ a < 0x050) ∨ (0x100 ≤ a ∧ a < 0x100 + s.build.nbuf)) :
    hostAccess (.write (BitVec.ofNat 16 a) w v) s = .next ((storeLanes a v w.bytes 0 s).setAnswer .written) := by
  have haddr : (BitVec.ofNat 16 a).toNat = a := by rw [BitVec.toNat_ofNat, Nat.mod_eq_of_lt hlt]
  have hok : busError s.build.nbuf (.write (BitVec.ofNat 16 a) w v) = none := by
    rw [busError_eq_none]
    simp only [Access.addr, Access.width, Access.isWrite, haddr]
    exact ⟨hw, by omega, by omega, by omega⟩
  have hcmd : region s.build.nbuf a ≠ .reg .cmd := by rw [ne_eq, region_cmd_iff]; omega
  unfold hostAccess
  simp only [hok, haddr, if_neg hcmd]

/-- Lanes stored inside BUF, from lane j on, are one `MemWrite` of them. -/
theorem storeLanes_buf (off : Nat) (v : Word) (n j : Nat) (s : State) (h : off + j + n ≤ s.build.nbuf) :
    storeLanes (0x100 + off) v n j s = s.memWrite (off + j) ((List.range' j n).map (lane v)) := by
  induction n generalizing j s with
  | zero => rfl
  | succ n ih =>
    have hbyte : storeByte (0x100 + off + j) (lane v j) s = s.memWrite (off + j) [lane v j] := by
      rw [storeByte, Nat.add_assoc, region_buf (by omega)]
      rfl
    rw [storeLanes, hbyte, ih (j + 1) _ (by rw [State.memWrite_build]; omega)]
    rfl

/-- A store inside BUF is one `MemWrite` of the value's lowest lanes (20_memory.md R63). -/
theorem storeLanes_buf_eq_memWrite {off n : Nat} (v : Word) {s : State} (h : off + n ≤ s.build.nbuf) :
    storeLanes (0x100 + off) v n 0 s = s.memWrite off (blockOf n (lane v)) := by
  rw [storeLanes_buf off v n 0 s h, blockOf, List.range_eq_range']
  rfl

/-- A byte stored in the IV_IN window sets that byte of IV_IN. At and above BS the port ignores the store (20_memory.md
R67), as `List.set` ignores an index past the end. -/
theorem storeByte_ivIn {s : State} (hlen : s.ivIn.length = s.bs) {k : Nat} (hk : k < 16) (b : Byte) :
    storeByte (0x040 + k) b s = s.setIvIn (s.ivIn.set k b) := by
  rw [storeByte, region_ivIn hk]
  by_cases hbs : k < s.bs
  · exact if_pos hbs
  · rw [List.set_eq_of_length_le (by omega)]
    exact if_neg hbs

theorem getD_set (l : List Byte) (m : Nat) (b : Byte) (k : Nat) :
    (l.set m b).getD k 0 = if k = m ∧ k < l.length then b else l.getD k 0 := by
  rw [List.getD_eq_getElem?_getD, List.getElem?_set, List.getD_eq_getElem?_getD]
  by_cases hm : m = k
  · subst hm
    by_cases hl : m < l.length <;> simp [hl]
  · rw [if_neg hm, if_neg (fun hc => hm hc.1.symm)]

/-- Lanes stored inside the IV_IN window replace the bytes they cover below BS, and nothing else (20_memory.md R67). -/
theorem storeLanes_ivIn (i : Nat) (v : Word) (n j : Nat) (s : State) (hlen : s.ivIn.length = s.bs) (h : i + j + n ≤ 16) :
    ∃ b, storeLanes (0x040 + i) v n j s = s.setIvIn b ∧ b.length = s.bs ∧
      ∀ k, b.getD k 0 = if i + j ≤ k ∧ k < i + j + n ∧ k < s.bs then lane v (k - i) else s.ivIn.getD k 0 := by
  induction n generalizing j s with
  | zero => exact ⟨s.ivIn, rfl, hlen, fun k => by rw [if_neg (by omega)]⟩
  | succ n ih =>
    have hbyte := storeByte_ivIn hlen (show i + j < 16 by omega) (lane v j)
    obtain ⟨b, hb, hblen, hget⟩ := ih (j + 1) (s.setIvIn (s.ivIn.set (i + j) (lane v j)))
      ((List.length_set ..).trans hlen) (by omega)
    refine ⟨b, ?_, hblen, fun k => ?_⟩
    · rw [storeLanes, Nat.add_assoc, hbyte, hb]
      rfl
    · rw [hget, State.setIvIn_ivIn, State.setIvIn_bs, getD_set, hlen]
      by_cases hk : k = i + j
      · subst hk
        rw [if_neg (by omega), Nat.add_sub_cancel_left]
        exact if_congr (by omega) rfl rfl
      · have hne : ¬(k = i + j ∧ k < s.bs) := fun hc => hk hc.1
        rw [if_neg hne]
        exact if_congr (by omega) rfl rfl

end Sys2Proof.Machine

namespace Sys2Proof.Proofs

open Sys2Proof.Machine

/-- Settles O51: a read answers and does nothing else, and an answer is nothing that a read sees. -/
theorem readsHaveNoEffect : Obligations.ReadsHaveNoEffect := by
  intro a w s
  have hagain := hostAccess_read a w (s.setAnswer (s.readAnswer a w))
  rw [State.readAnswer_setAnswer] at hagain
  exact ⟨s.readAnswer a w, hostAccess_read a w s, hagain⟩

/-- Settles O54: the whole access lies inside its window, so each of its bytes has an 8-bit read of its own. -/
theorem wideReadsUseLanes : Obligations.WideReadsUseLanes := by
  rintro s a w ⟨hmod, -, hn⟩ hw h0 h
  refine ⟨s.readWord a w, hostAccess_readWindow hn hw h0 h, s.readWord_lt a w, fun j hj => ?_⟩
  have hin : a + j < 0x070 ∨ (0x100 ≤ a + j ∧ a + j < 0x100 + s.build.nbuf) := by
    rcases h with h | ⟨h1, h2⟩
    · have := Width.aligned_end_le hw (by decide) h
      omega
    · have := Width.aligned_end_le hw (by omega) h2
      omega
  rw [s.lane_readWord a hj]
  exact hostAccess_readByte hn (by omega) hin

/-- Settles O55: the store is one `MemWrite` of the value's lanes. -/
theorem bufWriteStoresLanes : Obligations.BufWriteStoresLanes := by
  intro s off w v hn hw hend
  have hpos := w.bytes_pos
  refine ⟨_, hostAccess_writeWindow v (by omega) (Width.aligned_add (by decide) hw) (.inr (by omega)), ?_⟩
  rw [storeLanes_buf_eq_memWrite v hend]
  simp only [State.bufByte_setAnswer, State.bufByte_memWrite, blockOf_length]
  refine ⟨fun j hj => ?_, fun o ho => if_neg (by omega), rfl⟩
  rw [if_pos (by omega), Nat.add_sub_cancel_left, blockOf_getD _ _ _ hj]

/-- Settles O56: the whole access lies inside the window, and a stored byte at or above BS is ignored. -/
theorem ivInWriteStoresLanes : Obligations.IvInWriteStoresLanes := by
  intro s i w v hlen hw hi
  have hend : i + w.bytes ≤ 16 := Width.aligned_end_le hw (by decide) hi
  obtain ⟨b, hb, hblen, hget⟩ := storeLanes_ivIn i v w.bytes 0 s hlen (by omega)
  refine ⟨_, hostAccess_writeWindow v (by omega) (Width.aligned_add (by decide) hw) (.inl (by omega)), ?_⟩
  rw [hb]
  exact ⟨hblen, hget, rfl⟩

end Sys2Proof.Proofs
end

