-- ==== Sys2Proof/Proofs/PortOrder.lean ====
section
/-! PROOF. The order of the port (20_memory.md R71, R72, R76): the steps over queued accesses are the accesses made one
after another, since an access neither reads nor changes what waits behind it. -/

namespace Sys2Proof.Machine

/-- Every access is answered (60_exceptions.md R270). -/
theorem hostAccess_answer {a : Access} {s t : State} (h : hostAccess a s = .next t) : ∃ ans, t.answer = some ans := by
  rcases hostAccess_cases a s with ⟨-, he⟩ | ⟨_, _, -, -, he⟩ | ⟨_, -, he⟩ | ⟨_, _, _, -, -, -, he⟩ <;>
    rw [h] at he <;> cases he <;> exact ⟨_, rfl⟩

theorem hostAccess_setPort_of_next {a : Access} {s t : State} (h : hostAccess a s = .next t) (q : List Event) :
    hostAccess a (s.setPort q) = .next (t.setPort q) := by
  obtain ⟨u, hu, hq⟩ := hostAccess_setPort a s q
  rw [h] at hu
  cases hu
  exact hq

theorem hostRun_cons {a : Access} {l : List Access} {s t u : State} {ans : Answer} {answers : List Answer}
    (h : hostAccess a s = .next t) (ha : t.answer = some ans) (hl : hostRun l t = some (answers, u)) :
    hostRun (a :: l) s = some (ans :: answers, u) := by
  simp only [hostRun, h, ha, hl]

theorem run_succ_of_next {M : Host.Core} {k : Nat} {s t : M.State} (h : M.step s = .next t) :
    M.run (k + 1) s = M.run k t := by
  rw [Host.Core.run, h]

/-- The steps over queued accesses and the host's run of them leave the same state. -/
theorem run_queued (l : List Access) (s : State) (rest : List Event) :
    ∃ (answers : List Answer) (t : State), hostRun l (s.setPort rest) = some (answers, t) ∧
      answers.length = l.length ∧ core.run l.length (s.setPort (l.map .access ++ rest)) = .next t := by
  induction l generalizing s with
  | nil => exact ⟨[], s.setPort rest, rfl, rfl, rfl⟩
  | cons a l ih =>
    obtain ⟨t, ht⟩ := hostAccess_next a s
    obtain ⟨ans, hans⟩ := hostAccess_answer ht
    obtain ⟨answers, u, hrun, hlen, hcore⟩ := ih t
    have hstep : core.step (s.setPort ((a :: l).map .access ++ rest)) = .next (t.setPort (l.map .access ++ rest)) :=
      (step_cons (s := s.setPort ((a :: l).map Event.access ++ rest)) rfl).trans
        (hostAccess_setPort_of_next ht (l.map Event.access ++ rest))
    exact ⟨ans :: answers, u, hostRun_cons (hostAccess_setPort_of_next ht rest) hans hrun, congrArg (· + 1) hlen,
      (run_succ_of_next hstep).trans hcore⟩

end Sys2Proof.Machine

namespace Sys2Proof.Proofs

open Sys2Proof.Machine

/-- Settles O15, by induction on the accesses at the front of the port. -/
theorem portServesAccessesInOrder : Obligations.PortServesAccessesInOrder := by
  intro l s rest hp
  have hs : s.setPort (l.map .access ++ rest) = s := by rw [← hp]; rfl
  have hq := run_queued l s rest
  rwa [hs] at hq

end Sys2Proof.Proofs
end

