-- ==== Sys2Proof/Proofs/Encoding.lean ====
section
/-! PROOF. Commands and their words (30_encoding.md R90 to R102): encoder and decoder are inverse to each other, the
command map says what the decoder does, every other word sets E_CMD, and the assembler's words are the encoder's. -/

namespace Sys2Proof

/-! ## The encoder, by format -/

/-- Format M decodes to its SETMODE row (R92, R95). -/
theorem decode_formatM {mode ivlen : Nat} (hm : mode < 8) (hl : ivlen < 256) :
    decode (formatM mode ivlen) = .ok (setmodeRow mode ivlen) := by
  have hw := formatM_toNat hm hl
  have hop : bits (formatM mode ivlen) 0 4 = 1 := by rw [bits, hw]; omega
  have hres : ¬(bits (formatM mode ivlen) 16 16 ≠ 0 ∨ bits (formatM mode ivlen) 7 1 ≠ 0) := by rw [bits, bits, hw]; omega
  have hmode : bits (formatM mode ivlen) 4 3 = mode := by rw [bits, hw]; omega
  have hivlen : bits (formatM mode ivlen) 8 8 = ivlen := by rw [bits, hw]; omega
  rw [decode_op1 hop, if_neg hres, hmode, hivlen]

/-- The fields of a word of format D whose operand fits (R93). -/
theorem formatD_fields {op len : Nat} (ho : op < 16) (hl : len < 65536) : bits (formatD op len) 0 4 = op ∧
    bits (formatD op len) 4 12 = 0 ∧ bits (formatD op len) 16 16 = len := by
  rw [bits, bits, bits, formatD_toNat ho hl]
  omega

theorem decode_formatD_enc {len : Nat} (hl : len < 65536) : decode (formatD 2 len) = .ok (.enc len) := by
  obtain ⟨hop, hres, hlen⟩ := formatD_fields (op := 2) (by decide) hl
  rw [decode_op2 hop, hres, hlen]
  rfl

theorem decode_formatD_dec {len : Nat} (hl : len < 65536) : decode (formatD 3 len) = .ok (.dec len) := by
  obtain ⟨hop, hres, hlen⟩ := formatD_fields (op := 3) (by decide) hl
  rw [decode_op3 hop, hres, hlen]
  rfl

theorem encode_setmodeRow {mode : Nat} (hm : mode < 8) (ivlen : Nat) : encode (setmodeRow mode ivlen) = formatM mode ivlen := by
  interval_cases mode <;> rfl

theorem wellFormed_setmodeRow {mode : Nat} (hm : mode < 8) (ivlen : Nat) :
    (setmodeRow mode ivlen).wellFormed = decide (ivlen < 256) := by
  interval_cases mode <;> rfl

/-! ## Words by their fields -/

/-- A word without a reserved bit is made of the fields of format M (R92). -/
theorem eq_formatM {w : Word} (hop : bits w 0 4 = 1) (hhigh : bits w 16 16 = 0) (hbit : bits w 7 1 = 0) :
    formatM (bits w 4 3) (bits w 8 8) = w := by
  have hw := w.isLt
  apply BitVec.eq_of_toNat_eq
  rw [formatM_toNat (bits_lt w 4 3) (bits_lt w 8 8)]
  simp only [bits_eq] at *
  omega

/-- A word without a reserved bit is made of the fields of format D (R93). -/
theorem eq_formatD {w : Word} {op : Nat} (ho : op < 16) (hop : bits w 0 4 = op) (hres : bits w 4 12 = 0) :
    formatD op (bits w 16 16) = w := by
  have hw := w.isLt
  apply BitVec.eq_of_toNat_eq
  rw [formatD_toNat ho (bits_lt w 16 16)]
  simp only [bits_eq] at *
  omega

/-! ## The command map (R95) -/

/-- The row of a MODE code. -/
def setmodeOpRow (mode : Nat) : OpRow where
  mnemonic := (setmodeRow mode 0).mnemonic
  pattern := BitVec.ofNat 32 (1 + mode * 16)
  mask := 0xFFFF00FF

/-- The row of a block command. -/
def blockOpRow (i : Instr) (op : Nat) : OpRow where
  mnemonic := i.mnemonic
  pattern := BitVec.ofNat 32 op
  mask := 0x0000FFFF

/-- The command map is made of the rows of the two formats. -/
theorem opRows_eq : opRows = (List.range 8).map setmodeOpRow ++ [blockOpRow (.enc 0) 2, blockOpRow (.dec 0) 3] := rfl

theorem mnemonic_setmodeRow (mode ivlen : Nat) : (setmodeRow mode ivlen).mnemonic = (setmodeOpRow mode).mnemonic := by
  unfold setmodeOpRow setmodeRow
  split <;> rfl

/-- What the mask and the match of a SETMODE row ask of the fields. -/
theorem setmodeOpRow_selects {mode : Nat} (hm : mode < 8) (w : Word) : (setmodeOpRow mode).selects w = true ↔
    bits w 0 4 = 1 ∧ bits w 16 16 = 0 ∧ bits w 7 1 = 0 ∧ bits w 4 3 = mode := by
  have hw := w.isLt
  rw [OpRow.selects, decide_eq_true_iff, setmodeOpRow, ← BitVec.toNat_inj, and_maskM, BitVec.toNat_ofNat]
  simp only [bits_eq]
  omega

/-- What the mask and the match of a block command's row ask of the fields. -/
theorem blockOpRow_selects (i : Instr) {op : Nat} (ho : op < 16) (w : Word) : (blockOpRow i op).selects w = true ↔
    bits w 0 4 = op ∧ bits w 4 12 = 0 := by
  rw [OpRow.selects, decide_eq_true_iff, blockOpRow, ← BitVec.toNat_inj, and_maskD, BitVec.toNat_ofNat]
  simp only [bits_eq]
  omega

/-- What a row of the map selects is a command of that row. -/
theorem decode_of_selects {r : OpRow} (hr : r ∈ opRows) {w : Word} (h : r.selects w = true) :
    ∃ i, decode w = .ok i ∧ i.mnemonic = r.mnemonic := by
  simp only [opRows_eq, List.mem_append, List.mem_map, List.mem_range, List.mem_cons, List.not_mem_nil, or_false] at hr
  rcases hr with ⟨mode, hm, rfl⟩ | rfl | rfl
  · obtain ⟨hop, hhigh, hbit, hmode⟩ := (setmodeOpRow_selects hm w).mp h
    refine ⟨setmodeRow mode (bits w 8 8), ?_, mnemonic_setmodeRow mode _⟩
    rw [decode_op1 hop, if_neg (by omega), hmode]
  · obtain ⟨hop, hres⟩ := (blockOpRow_selects _ (by decide) w).mp h
    refine ⟨.enc (bits w 16 16), ?_, rfl⟩
    rw [decode_op2 hop, hres]
    rfl
  · obtain ⟨hop, hres⟩ := (blockOpRow_selects _ (by decide) w).mp h
    refine ⟨.dec (bits w 16 16), ?_, rfl⟩
    rw [decode_op3 hop, hres]
    rfl

theorem mem_opRows : (∀ mode < 8, setmodeOpRow mode ∈ opRows) ∧
    blockOpRow (.enc 0) 2 ∈ opRows ∧ blockOpRow (.dec 0) 3 ∈ opRows := by
  decide

/-- A word that decodes is selected by its command's row. -/
theorem selects_of_decode {w : Word} {i : Instr} (h : decode w = .ok i) :
    ∃ r ∈ opRows, r.mnemonic = i.mnemonic ∧ r.selects w = true := by
  obtain ⟨hset, henc, hdec⟩ := mem_opRows
  rcases decode_ok h with ⟨hop, hhigh, hbit, rfl⟩ | ⟨hop, hres, rfl⟩ | ⟨hop, hres, rfl⟩
  · exact ⟨_, hset _ (bits_lt w 4 3), (mnemonic_setmodeRow _ _).symm,
      (setmodeOpRow_selects (bits_lt w 4 3) w).mpr ⟨hop, hhigh, hbit, rfl⟩⟩
  · exact ⟨_, henc, rfl, (blockOpRow_selects _ (by decide) w).mpr ⟨hop, hres⟩⟩
  · exact ⟨_, hdec, rfl, (blockOpRow_selects _ (by decide) w).mpr ⟨hop, hres⟩⟩

/-- No two rows have one mnemonic. -/
theorem opRows_mnemonic_inj : ∀ r ∈ opRows, ∀ r' ∈ opRows, r.mnemonic = r'.mnemonic → r = r' := by decide

/-- A row selects a word exactly when the word decodes to a command of that row. -/
theorem selects_iff_decode {r : OpRow} (hr : r ∈ opRows) (w : Word) :
    r.selects w = true ↔ ∃ i, decode w = .ok i ∧ i.mnemonic = r.mnemonic := by
  refine ⟨decode_of_selects hr, fun ⟨i, hd, hi⟩ => ?_⟩
  obtain ⟨r', hr', hn, hsel⟩ := selects_of_decode hd
  rwa [opRows_mnemonic_inj r hr r' hr' (hi.symm.trans hn.symm)]

/-- Every command has exactly one row. -/
theorem opRows_filter_mnemonic (i : Instr) :
    (opRows.filter (fun r => decide (r.mnemonic = i.mnemonic))).map OpRow.mnemonic = [i.mnemonic] := by
  cases i <;> rfl

/-! ## The round trips -/

theorem decode_encode {i : Instr} (h : i.wellFormed = true) : decode (encode i) = .ok i := by
  cases i with
  | enc len => exact decode_formatD_enc (of_decide_eq_true h)
  | dec len => exact decode_formatD_dec (of_decide_eq_true h)
  | setmodeEcb ivlen => exact decode_formatM (mode := 0) (by decide) (of_decide_eq_true h)
  | setmodeCbc ivlen => exact decode_formatM (mode := 1) (by decide) (of_decide_eq_true h)
  | setmodePcbc ivlen => exact decode_formatM (mode := 2) (by decide) (of_decide_eq_true h)
  | setmodeCfb ivlen => exact decode_formatM (mode := 3) (by decide) (of_decide_eq_true h)
  | setmodeOfb ivlen => exact decode_formatM (mode := 4) (by decide) (of_decide_eq_true h)
  | setmodeCtr ivlen => exact decode_formatM (mode := 5) (by decide) (of_decide_eq_true h)
  | setmodeCtrle ivlen => exact decode_formatM (mode := 6) (by decide) (of_decide_eq_true h)
  | setmodeBad ivlen => exact decode_formatM (mode := 7) (by decide) (of_decide_eq_true h)

theorem encode_of_decode {w : Word} {i : Instr} (h : decode w = .ok i) : i.wellFormed = true ∧ encode i = w := by
  rcases decode_ok h with ⟨hop, hhigh, hbit, rfl⟩ | ⟨hop, hres, rfl⟩ | ⟨hop, hres, rfl⟩
  · rw [wellFormed_setmodeRow (bits_lt w 4 3), encode_setmodeRow (bits_lt w 4 3)]
    exact ⟨decide_eq_true (bits_lt w 8 8), eq_formatM hop hhigh hbit⟩
  · exact ⟨decide_eq_true (bits_lt w 16 16), eq_formatD (by decide) hop hres⟩
  · exact ⟨decide_eq_true (bits_lt w 16 16), eq_formatD (by decide) hop hres⟩

/-! ## Words that are no command -/

theorem decode_unassigned {w : Word} (h : bits w 0 4 = 0 ∨ 4 ≤ bits w 0 4) :
    decode w = .error (.unassignedOp (bits w 0 4)) := by
  unfold decode
  split
  case h_4 => rfl
  all_goals omega

theorem decode_reservedBits {w : Word} (h : (bits w 0 4 = 1 ∧ (bits w 7 1 ≠ 0 ∨ bits w 16 16 ≠ 0)) ∨
    ((bits w 0 4 = 2 ∨ bits w 0 4 = 3) ∧ bits w 4 12 ≠ 0)) : decode w = .error .reservedBits := by
  rcases h with ⟨hop, hres⟩ | ⟨hop | hop, hres⟩
  · rw [decode_op1 hop, if_pos hres.symm]
  · rw [decode_op2 hop, if_pos hres]
  · rw [decode_op3 hop, if_pos hres]

end Sys2Proof

namespace Sys2Proof.Machine

/-- A word that the decoder rejects sets E_CMD and changes nothing else (R97, R98). -/
theorem command_of_decodeError {w : Word} {s : State} {e : DecodeError} (hf : s.fault = false)
    (h : decode w = .error e) : command w s = .next { s with result := 1 } := by
  rw [command_of_noFault hf, wordEffect, h]
  rfl

end Sys2Proof.Machine

namespace Sys2Proof.Proofs

open Sys2Proof.Machine

/-- Settles O6, by the format of each command. -/
theorem decodeOfEncode : Obligations.DecodeOfEncode := fun _ h => decode_encode h

/-- Settles O7: a word without a reserved bit is made of its fields. -/
theorem encodeOfDecode : Obligations.EncodeOfDecode := fun _ _ h => encode_of_decode h

/-- Settles O8: a row selects a word exactly when its mnemonic is that of the decoded command. -/
theorem decoderFollowsCommandMap : Obligations.DecoderFollowsCommandMap := by
  intro w
  cases hd : decode w with
  | error e =>
    have hnone : ∀ r ∈ opRows, ¬r.selects w = true := by
      intro r hr hsel
      obtain ⟨i, hi, -⟩ := decode_of_selects hr hsel
      rw [hd] at hi
      cases hi
    rw [List.filter_eq_nil_iff.mpr hnone, List.map_nil]
  | ok i =>
    have hrow : ∀ r ∈ opRows, r.selects w = decide (r.mnemonic = i.mnemonic) := by
      intro r hr
      rw [Bool.eq_iff_iff, selects_iff_decode hr, decide_eq_true_iff, hd]
      exact ⟨fun ⟨j, hj, hn⟩ => by cases hj; exact hn.symm, fun hn => ⟨i, rfl, hn.symm⟩⟩
    rw [List.filter_congr hrow, opRows_filter_mnemonic]

/-- Settles O9, by running the decoder. -/
theorem writtenWordsDecode : Obligations.WrittenWordsDecode := ⟨rfl, rfl, rfl, rfl, rfl, rfl, rfl⟩

/-- Settles O10. -/
theorem unassignedOpSetsECmd : Obligations.UnassignedOpSetsECmd :=
  fun _ _ hf hop => command_of_decodeError hf (decode_unassigned hop)

/-- Settles O11. -/
theorem reservedBitsSetECmd : Obligations.ReservedBitsSetECmd :=
  fun _ _ hf hres => command_of_decodeError hf (decode_reservedBits hres)

end Sys2Proof.Proofs
end

