-- ==== Sys2Proof/Proofs/Assembler.lean ====
section
/-! PROOF. The assembler of the host-program language (30_encoding.md R102): the access of each statement, and what it
refuses. -/

namespace Sys2Proof.Machine

open Sys2Proof.Statements

/-! ## Mode arguments -/

theorem assemblerCode_raw {code : Nat} (h : code < 8) : assemblerCode (.raw code) = some code := if_pos h

theorem assemblerCode_raw_refused {code : Nat} (h : 8 ≤ code) : assemblerCode (.raw code) = none :=
  if_neg (Nat.not_lt.mpr h)

/-- The names of R102 have their codes. -/
theorem assemblerCode_name : ∀ r ∈ assemblerNames, assemblerCode (.name r.1) = some r.2 := by decide

theorem assemblerNames_code_lt : ∀ r ∈ assemblerNames, r.2 < 8 := by decide

/-- Any other name has none. -/
theorem assemblerCode_unknown {n : Name} (h : ∀ r ∈ assemblerNames, n ≠ r.1) : assemblerCode (.name n) = none := by
  simp only [assemblerNames, List.forall_mem_cons] at h
  obtain ⟨hecb, hcbc, hpcbc, hcfb, hofb, hctr, hctrle, -⟩ := h
  rw [assemblerCode, if_neg hecb, if_neg hcbc, if_neg hpcbc, if_neg hcfb, if_neg hofb, if_neg hctr, if_neg hctrle]

/-! ## Addresses -/

theorem assemblerAddr_toNat {width : Width} {addr : Addr} (h : addr.toNat % width.bytes = 0) :
    assemblerAddr width addr.toNat = some addr := by
  rw [assemblerAddr, if_pos ⟨addr.isLt, h⟩, BitVec.ofNat_toNat, BitVec.setWidth_eq]

theorem assemblerAddr_refused {width : Width} {addr : Nat} (h : addr % width.bytes ≠ 0 ∨ 65536 ≤ addr) :
    assemblerAddr width addr = none := by
  rw [assemblerAddr, if_neg (by omega)]

/-! ## Statements -/

/-- `setmode` performs the CMD write of its SETMODE command where IVLEN fits, and is refused where it does not. -/
theorem assemble_setmode {m : ModeArg} {code : Nat} (hm : assemblerCode m = some code) (hc : code < 8) (ivlen : Nat) :
    (ivlen < 256 → ∃ w, assemble (.setmode m ivlen) = some (.write 0x000 .w32 w) ∧ decode w = .ok (setmodeRow code ivlen)) ∧
    (256 ≤ ivlen → assemble (.setmode m ivlen) = none) := by
  simp only [assemble, hm]
  refine ⟨fun hl => ⟨formatM code ivlen, ?_, decode_formatM hc hl⟩, fun hl => if_neg (Nat.not_lt.mpr hl)⟩
  rw [if_pos hl, writeCommand]

theorem assemble_setmode_refused {m : ModeArg} (hm : assemblerCode m = none) (ivlen : Nat) :
    assemble (.setmode m ivlen) = none := by
  simp only [assemble, hm]

end Sys2Proof.Machine

namespace Sys2Proof.Proofs

open Sys2Proof.Machine

/-- Settles O12, statement form by statement form: each performs its access or is refused. -/
theorem assemblerEncodesItsStatement : Obligations.AssemblerEncodesItsStatement := by
  refine ⟨fun len => ⟨fun hl => ⟨_, if_pos hl, decode_formatD_enc hl⟩, fun hl => if_neg (Nat.not_lt.mpr hl)⟩,
    fun len => ⟨fun hl => ⟨_, if_pos hl, decode_formatD_dec hl⟩, fun hl => if_neg (Nat.not_lt.mpr hl)⟩,
    fun code ivlen => ⟨fun hc => (assemble_setmode (assemblerCode_raw hc) hc ivlen).1, ?_⟩,
    fun r hr => assemble_setmode (assemblerCode_name r hr) (assemblerNames_code_lt r hr),
    fun n hn => assemble_setmode_refused (assemblerCode_unknown hn), fun w => rfl, ?_, ?_⟩
  · intro h
    rcases Nat.lt_or_ge code 8 with hc | hc
    · exact (assemble_setmode (assemblerCode_raw hc) hc ivlen).2 (by omega)
    · exact assemble_setmode_refused (assemblerCode_raw_refused hc) ivlen
  · intro width addr v h
    rw [assemble, assemble, assemblerAddr_toNat h]
    exact ⟨rfl, rfl⟩
  · intro width addr v h
    rw [assemble, assemble, assemblerAddr_refused h]
    exact ⟨rfl, rfl⟩

end Sys2Proof.Proofs
end

