-- ==== Sys2Proof/Proofs/Streams.lean ====
section
/-! PROOF. A block command is its block rule applied to the blocks of BUF as a stream (40_encrypt.md R120, R130, R131;
41_decrypt.md R150, R160). -/

namespace Sys2Proof.Machine

open Sys2Proof.Statements

/-! ## Streams -/

theorem stream_append (rule : Chain → Block → Block × Chain) (l m : List Block) (c : Chain) :
    stream rule (l ++ m) c =
      ((stream rule l c).1 ++ (stream rule m (stream rule l c).2).1, (stream rule m (stream rule l c).2).2) := by
  induction l generalizing c with
  | nil => rfl
  | cons x l ih => simp only [List.cons_append, stream, ih]

/-! ## The blocks of BUF -/

/-- Blocks k, k+1, ..., k+n-1 of BUF. -/
def blocksFrom (s : State) (k n : Nat) : List Block := (List.range' k n).map (fun j => s.memRead (j * s.bs) s.bs)

theorem blocksOf_eq_blocksFrom (s : State) (n : Nat) : blocksOf s n = blocksFrom s 0 n := by
  rw [blocksOf, List.range_eq_range', blocksFrom]

theorem blocksFrom_succ (s : State) (k n : Nat) :
    blocksFrom s k (n + 1) = s.memRead (k * s.bs) s.bs :: blocksFrom s (k + 1) n := rfl

theorem blocksFrom_add (s : State) (k m n : Nat) :
    blocksFrom s k (m + n) = blocksFrom s k m ++ blocksFrom s (k + m) n := by
  simp only [blocksFrom, ← List.range'_append_1, List.map_append]

@[simp] theorem blocksFrom_length (s : State) (k n : Nat) : (blocksFrom s k n).length = n := by simp [blocksFrom]

/-- The blocks, one after another, are the bytes of BUF that they cover. -/
theorem blocksFrom_flatten (s : State) (k n : Nat) :
    (blocksFrom s k n).flatten = s.memRead (k * s.bs) (n * s.bs) := by
  induction n generalizing k with
  | zero => simp [blocksFrom, State.memRead, blockOf]
  | succ n ih =>
    rw [blocksFrom_succ, List.flatten_cons, ih, Nat.succ_mul n, Nat.add_comm (n * s.bs), Nat.succ_mul k]
    simp only [State.memRead, blockOf, List.range_add, List.map_append, List.map_map, Function.comp_def, Nat.add_assoc]

theorem State.memRead_eq_iff {s t : State} {o o' n : Nat} :
    t.memRead o' n = s.memRead o n ↔ ∀ i < n, t.bufByte (o' + i) = s.bufByte (o + i) := by
  simp only [State.memRead, blockOf, List.map_inj_left, List.mem_range]

/-- The same bytes make the same blocks. -/
theorem blocksFrom_congr {s t : State} (hbs : t.bs = s.bs) {j k n : Nat}
    (h : t.memRead (j * s.bs) (n * s.bs) = s.memRead (k * s.bs) (n * s.bs)) : blocksFrom t j n = blocksFrom s k n := by
  rw [State.memRead_eq_iff] at h
  have hblock : ∀ i < n, t.memRead ((j + i) * s.bs) s.bs = s.memRead ((k + i) * s.bs) s.bs := by
    intro i hi
    have hend : (i + 1) * s.bs ≤ n * s.bs := Nat.mul_le_mul_right _ hi
    refine State.memRead_eq_iff.mpr fun b hb => ?_
    have := h (i * s.bs + b) (by rw [Nat.succ_mul] at hend; omega)
    rwa [← Nat.add_assoc, ← Nat.add_assoc, ← Nat.add_mul, ← Nat.add_mul] at this
  simp only [blocksFrom, List.range'_eq_map_range, List.map_map, hbs]
  exact List.map_congr_left fun i hi => hblock i (List.mem_range.mp hi)

/-- Block i of a command's n blocks. -/
theorem blocksOf_getElem? {s : State} {n i : Nat} (hi : i < n) :
    (blocksOf s n)[i]? = some (s.memRead (i * s.bs) s.bs) := by
  simp [blocksOf, hi]

/-! ## The block loop -/

/-- The block loop is the block rule over the stream of its blocks (10_state.md R21, 40_encrypt.md R130). -/
theorem runBlocks_stream (d : Dir) (p : Route) (n k : Nat) {s : State} (h : s.chain.sized s.bs) :
    stream (s.block d p) (blocksFrom s k n) s.chain =
      (blocksFrom (runBlocks d p n k s) k n, (runBlocks d p n k s).chain) := by
  induction n generalizing k s with
  | zero => rfl
  | succ n ih =>
    have hstep : (blockStep d p k s).chain.sized (blockStep d p k s).bs := blockStep_sized d p h k
    have hend : (k + 1) * s.bs = k * s.bs + s.bs := Nat.succ_mul k s.bs
    have hrest : blocksFrom (blockStep d p k s) (k + 1) n = blocksFrom s (k + 1) n :=
      blocksFrom_congr (s := s) (t := blockStep d p k s) rfl
        (blockStep_memRead_apart d p h k _ _ (.inr hend.ge))
    have hhead : (runBlocks d p n (k + 1) (blockStep d p k s)).memRead (k * s.bs) s.bs = (s.blockAt d p k).1 :=
      (runBlocks_memRead_outside d p n (k + 1) hstep _ _ (.inl hend.ge)).trans (blockStep_memRead_same d p h k)
    have htail := ih (k + 1) hstep
    rw [hrest, blockStep_block, blockStep_chain] at htail
    rw [runBlocks, blocksFrom_succ, blocksFrom_succ, runBlocks_bs]
    have hblock : s.block d p s.chain (s.memRead (k * s.bs) s.bs) = s.blockAt d p k := rfl
    have hbs : (blockStep d p k s).bs = s.bs := rfl
    simp only [stream, hblock, hbs, hhead, htail]

@[simp] theorem runBlocks_block (d : Dir) (p : Route) (n k : Nat) (s : State) :
    (runBlocks d p n k s).block d p = s.block d p :=
  runBlocks_keeps (fun s => s.block d p) d p (fun _ _ => rfl) n k s

@[simp] theorem runBlocks_capable (d : Dir) (p : Route) (n k : Nat) (s : State) :
    (runBlocks d p n k s).capable d = s.capable d :=
  runBlocks_keeps (fun s => s.capable d) d p (fun _ _ => by cases d <;> rfl) n k s

/-- A loop of m + n blocks is one of m blocks and one of n blocks, the latter from any state w whose first n blocks are
the next n of s and whose chaining state is the one the former left (40_encrypt.md R131). -/
theorem runBlocks_split (d : Dir) (p : Route) (m n : Nat) {s w : State} (h : s.chain.sized s.bs) (hbs : w.bs = s.bs)
    (hblock : w.block d p = s.block d p) (hchain : w.chain = (runBlocks d p m 0 s).chain)
    (hmoved : w.memRead 0 (n * s.bs) = s.memRead (m * s.bs) (n * s.bs)) :
    (runBlocks d p m 0 s).memRead 0 (m * s.bs) = (runBlocks d p (m + n) 0 s).memRead 0 (m * s.bs) ∧
    (runBlocks d p n 0 w).memRead 0 (n * s.bs) = (runBlocks d p (m + n) 0 s).memRead (m * s.bs) (n * s.bs) ∧
    (runBlocks d p n 0 w).chain = (runBlocks d p (m + n) 0 s).chain := by
  have hw : w.chain.sized w.bs := by rw [hchain, hbs]; simpa using runBlocks_sized d p m 0 h
  have hblocks : blocksFrom w 0 n = blocksFrom s m n := blocksFrom_congr hbs (by simpa using hmoved)
  have hfirst := runBlocks_stream d p m 0 h
  have hsecond := runBlocks_stream d p n 0 hw
  have hwhole := runBlocks_stream d p (m + n) 0 h
  rw [hblock, hblocks, hchain] at hsecond
  rw [blocksFrom_add, blocksFrom_add, stream_append, Nat.zero_add, hfirst, hsecond, Prod.mk.injEq] at hwhole
  obtain ⟨hout, hlast⟩ := hwhole
  obtain ⟨hout1, hout2⟩ := List.append_inj hout (by simp)
  refine ⟨?_, ?_, hlast⟩
  · simpa [blocksFrom_flatten] using congrArg List.flatten hout1
  · simpa [blocksFrom_flatten, hbs] using congrArg List.flatten hout2

/-! ## The command -/

/-- The block command of a direction. -/
def Dir.instr : Dir → Nat → Instr
  | .encrypt => .enc
  | .decrypt => .dec

theorem effect_instr (d : Dir) (len : Nat) : effect (d.instr len) = crypt d len := by cases d <;> rfl

section
variable {d : Dir} {p : Route} {len : Nat} {s : State} (hr : Runs len s) (hc : s.capable d = true)
  (hp : route s.build.ctrle s.mode = some p)
include hr hc hp

/-- A capable block command with its checks passed runs its blocks (40_encrypt.md R120, 41_decrypt.md R150). -/
theorem exec_runBlocks : exec (d.instr len) s = .next ((runBlocks d p (len / s.bs) 0 s).setResult .ok) := by
  rw [exec_of_noFault hr.noFault, effect_instr, crypt_runs hc hr.whole hr.fits hp]

/-- It processes them as a stream of its block rule and leaves all else alone. -/
theorem exec_streams (h : s.chain.sized s.bs) : Streams (d.instr len) s (len / s.bs) (s.block d p) := by
  have hstream := runBlocks_stream d p (len / s.bs) 0 h
  rw [← blocksOf_eq_blocksFrom, ← blocksOf_eq_blocksFrom] at hstream
  refine ⟨_, exec_runBlocks hr hc hp, ?_, fun off ho => ?_, ?_⟩
  · rw [hstream]; rfl
  · exact runBlocks_bufByte_outside d p _ 0 h off (.inr (by rwa [Nat.zero_add]))
  · rw [hstream]
    exact congrArg (fun t => t.setResult .ok) (runBlocks_frame d p (len / s.bs) 0 s)

end

/-- A command over m + n blocks leaves what one over m blocks and one over the next n blocks leave (R131). -/
theorem exec_split {d : Dir} {p : Route} {m n : Nat} {s : State} (h : EngineInv s) (hr : Runs ((m + n) * s.bs) s)
    (hc : s.capable d = true) (hp : route s.build.ctrle s.mode = some p) :
    ∃ t u v, exec (d.instr ((m + n) * s.bs)) s = .next t ∧ exec (d.instr (m * s.bs)) s = .next u ∧
      exec (d.instr (n * s.bs)) (u.memWrite 0 (s.memRead (m * s.bs) (n * s.bs))) = .next v ∧
      u.memRead 0 (m * s.bs) = t.memRead 0 (m * s.bs) ∧ v.memRead 0 (n * s.bs) = t.memRead (m * s.bs) (n * s.bs) ∧
      v.iv = t.iv ∧ v.ctr = t.ctr := by
  obtain ⟨hfault, -, hfits⟩ := hr
  rw [Nat.add_mul] at hfits
  have hrun : ∀ k, k * s.bs ≤ s.build.nbuf → Runs (k * s.bs) s := fun k hk => ⟨hfault, Nat.mul_mod_left k s.bs, hk⟩
  have hdiv : ∀ k, k * s.bs / s.bs = k := fun k => Nat.mul_div_cancel k h.bs_pos
  have ht := exec_runBlocks (hrun (m + n) (by rwa [Nat.add_mul])) hc hp
  have hu := exec_runBlocks (hrun m (by omega)) hc hp
  rw [hdiv] at ht hu
  let x := s.memRead (m * s.bs) (n * s.bs)
  let w := ((runBlocks d p m 0 s).setResult .ok).memWrite 0 x
  have hbs : w.bs = s.bs := runBlocks_bs d p m 0 s
  have hbuild : w.build = s.build := runBlocks_build d p m 0 s
  have hmode : w.mode = s.mode := runBlocks_mode d p m 0 s
  have hrunw : Runs (n * s.bs) w :=
    ⟨(runBlocks_fault d p m 0 s).trans hfault, by rw [hbs, Nat.mul_mod_left], by rw [hbuild]; omega⟩
  have hv := exec_runBlocks hrunw ((runBlocks_capable d p m 0 s).trans hc) (by rw [hbuild, hmode]; exact hp)
  rw [hbs, hdiv] at hv
  have hmoved : w.memRead 0 (n * s.bs) = x := by
    simpa [x] using State.memRead_memWrite_same ((runBlocks d p m 0 s).setResult .ok) 0 x
  obtain ⟨hfirst, hsecond, hlast⟩ :=
    runBlocks_split d p m n h.chainSized hbs (runBlocks_block d p m 0 s) (w := w) rfl hmoved
  exact ⟨_, _, _, ht, hu, hv, hfirst, hsecond, congrArg Chain.iv hlast, congrArg Chain.ctr hlast⟩

end Sys2Proof.Machine

namespace Sys2Proof.Proofs

open Sys2Proof.Machine Sys2Proof.Statements

/-- Settles O30: the block loop is the block rule over a stream, in both directions. -/
theorem cryptProcessesBlocksInOrder : Obligations.CryptProcessesBlocksInOrder :=
  fun _ _ _ h hr hp => ⟨fun hc => exec_streams (d := .encrypt) hr hc hp h.chainSized,
    fun hc => exec_streams (d := .decrypt) hr hc hp h.chainSized⟩

/-- Settles O31: with both byte counts as numbers of blocks, it is `exec_split` in either direction. -/
theorem commandsSplit : Obligations.CommandsSplit := by
  intro a b s h hr ha i hi
  obtain ⟨p, hp⟩ := Option.isSome_iff_exists.mp h.mode
  have hda : s.bs ∣ a := Nat.dvd_of_mod_eq_zero ha
  have hdb : s.bs ∣ b := (Nat.dvd_add_right hda).mp (Nat.dvd_of_mod_eq_zero hr.whole)
  obtain ⟨m, rfl⟩ := exists_eq_mul_left_of_dvd hda
  obtain ⟨n, rfl⟩ := exists_eq_mul_left_of_dvd hdb
  rw [← Nat.add_mul] at hr ⊢
  rcases hi with ⟨rfl, hc⟩ | ⟨rfl, hc⟩
  · exact exec_split (d := .encrypt) h hr hc hp
  · exact exec_split (d := .decrypt) h hr hc hp

end Sys2Proof.Proofs
end

