-- ==== Sys2Proof/Proofs/BlockRules.lean ====
section
/-! PROOF. Every mode over one block, in both directions (40_encrypt.md R123 to R129, 41_decrypt.md R152 to R158): a
command of BS bytes is one application of its block rule. -/

namespace Sys2Proof.Machine

open Sys2Proof.Statements

/-! ## The capability check of DECRYPT -/

/-- DECRYPT needs CAN_DEC, and CAN_ENC too in the rows that call the forward transform (41_decrypt.md R151). -/
theorem decCapable_iff {s : State} {p : Route} (hp : route s.build.ctrle s.mode = some p) :
    s.decCapable = true ↔ s.canDec = true ∧ (p.keystream = true → s.canEnc = true) := by
  simp only [State.decCapable, State.decNeedsEnc, hp]
  cases p.keystream <;> simp

/-! ## One block -/

theorem blocksOf_one (s : State) : blocksOf s 1 = [s.memRead 0 s.bs] := by
  rw [blocksOf_eq_blocksFrom, blocksFrom_succ, Nat.zero_mul]
  rfl

/-- A stream of one block is one application of the block rule. -/
theorem oneBlock_of_streams {i : Instr} {s : State} {rule : Chain → Block → Block × Chain} (h : Streams i s 1 rule) :
    OneBlock i s (rule s.chain (s.memRead 0 s.bs)).1 (rule s.chain (s.memRead 0 s.bs)).2.iv
      (rule s.chain (s.memRead 0 s.bs)).2.ctr := by
  obtain ⟨t, ht, hout, hrest, hframe⟩ := h
  have hbs : t.bs = s.bs := (congrArg State.bs hframe :)
  rw [blocksOf_one] at hframe hout
  rw [blocksOf_one, hbs] at hout
  exact ⟨t, ht, (List.cons.inj hout).1, fun off ho => hrest off (by omega), hframe⟩

section
variable {s : State} (h : EngineInv s) {p : Route} (hp : route s.build.ctrle s.mode = some p)
include h

/-- A command of one block passes the length checks: NBUF holds at least one block (00_scope.md R6, R7). -/
theorem EngineInv.runs_oneBlock : Runs s.bs s := by
  obtain ⟨-, hmin, -⟩ := h.build
  have hbs := h.blockBytes
  exact ⟨h.noFault, Nat.mod_self s.bs, by omega⟩

include hp

theorem exec_oneBlock {d : Dir} (hc : s.capable d = true) :
    OneBlock (d.instr s.bs) s (s.block d p s.chain (s.memRead 0 s.bs)).1
      (s.block d p s.chain (s.memRead 0 s.bs)).2.iv (s.block d p s.chain (s.memRead 0 s.bs)).2.ctr := by
  have hstreams := exec_streams h.runs_oneBlock hc hp h.chainSized
  rw [Nat.div_self h.bs_pos] at hstreams
  exact oneBlock_of_streams hstreams

/-- ENCRYPT of one block is EncBlock of its row. -/
theorem encrypt_oneBlock (hc : s.canEnc = true) :
    OneBlock (.enc s.bs) s (encBlock p s.enc s.chain (s.memRead 0 s.bs)).1
      (encBlock p s.enc s.chain (s.memRead 0 s.bs)).2.iv (encBlock p s.enc s.chain (s.memRead 0 s.bs)).2.ctr :=
  exec_oneBlock h hp (d := .encrypt) hc

/-- DECRYPT of one block is DecBlock of its row. -/
theorem decrypt_oneBlock (hd : s.canDec = true) (he : p.keystream = true → s.canEnc = true) :
    OneBlock (.dec s.bs) s (decBlock p s.enc s.dec s.chain (s.memRead 0 s.bs)).1
      (decBlock p s.enc s.dec s.chain (s.memRead 0 s.bs)).2.iv
      (decBlock p s.enc s.dec s.chain (s.memRead 0 s.bs)).2.ctr :=
  exec_oneBlock h hp (d := .decrypt) ((decCapable_iff hp).mpr ⟨hd, he⟩)

end

end Sys2Proof.Machine

namespace Sys2Proof.Proofs

open Sys2Proof.Machine

/-- Settles O32: the ECB row over one block; its DECRYPT calls the inverse transform and needs no CAN_ENC. -/
theorem ecbBlockRules : Obligations.EcbBlockRules := by
  intro s h hm
  have hp : route s.build.ctrle s.mode = some .ecb := by rw [hm]; rfl
  exact ⟨encrypt_oneBlock h hp, fun hd => decrypt_oneBlock h hp hd nofun⟩

/-- Settles O33: the CBC row over one block; its DECRYPT calls the inverse transform and needs no CAN_ENC. -/
theorem cbcBlockRules : Obligations.CbcBlockRules := by
  intro s h hm
  have hp : route s.build.ctrle s.mode = some .cbc := by rw [hm]; rfl
  exact ⟨encrypt_oneBlock h hp, fun hd => decrypt_oneBlock h hp hd nofun⟩

/-- Settles O34: the PCBC row over one block; its DECRYPT calls the inverse transform and needs no CAN_ENC. -/
theorem pcbcBlockRules : Obligations.PcbcBlockRules := by
  intro s h hm
  have hp : route s.build.ctrle s.mode = some .pcbc := by rw [hm]; rfl
  exact ⟨encrypt_oneBlock h hp, fun hd => decrypt_oneBlock h hp hd nofun⟩

/-- Settles O35: the CFB row over one block; its DECRYPT calls the forward transform, so it needs CAN_ENC. -/
theorem cfbBlockRules : Obligations.CfbBlockRules := by
  intro s h hm
  have hp : route s.build.ctrle s.mode = some .cfb := by rw [hm]; rfl
  exact ⟨encrypt_oneBlock h hp, fun hd he => decrypt_oneBlock h hp hd fun _ => he⟩

/-- Settles O36: the OFB row over one block; its DECRYPT calls the forward transform, so it needs CAN_ENC. -/
theorem ofbBlockRules : Obligations.OfbBlockRules := by
  intro s h hm
  have hp : route s.build.ctrle s.mode = some .ofb := by rw [hm]; rfl
  exact ⟨encrypt_oneBlock h hp, fun hd he => decrypt_oneBlock h hp hd fun _ => he⟩

/-- Settles O37: the CTR row over one block; its DECRYPT calls the forward transform, so it needs CAN_ENC. -/
theorem ctrBlockRules : Obligations.CtrBlockRules := by
  intro s h hm
  have hp : route s.build.ctrle s.mode = some .ctr := by rw [hm]; rfl
  exact ⟨encrypt_oneBlock h hp, fun hd he => decrypt_oneBlock h hp hd fun _ => he⟩

/-- Settles O38: under either policy MODE 6 is legal and selects a row of its own. -/
theorem ctrleBlockRules : Obligations.CtrleBlockRules := by
  intro s h hm
  refine ⟨fun hpol => ?_, fun hpol => ?_⟩
  · have hp : route s.build.ctrle s.mode = some .ctrLe := by rw [hm, hpol]; rfl
    exact ⟨encrypt_oneBlock h hp, fun hd he => decrypt_oneBlock h hp hd fun _ => he⟩
  · have hp : route s.build.ctrle s.mode = some .ecbFallback := by rw [hm, hpol]; rfl
    exact ⟨encrypt_oneBlock h hp, fun hd => decrypt_oneBlock h hp hd nofun⟩

end Sys2Proof.Proofs
end

