-- ==== Sys2Proof/Proofs/Keystream.lean ====
section
/-! PROOF. The modes whose chaining state does not depend on the data: ECB, where every block stands alone, and OFB and
CTR, whose keystream is the chaining state's alone (40_encrypt.md R123, R127, R128; 41_decrypt.md R152, R156, R157). -/

namespace Sys2Proof.Machine

open Sys2Proof.Statements

/-! ## The counter's number -/

theorem valBe_lt (c : Block) : valBe c < 256 ^ c.length := by
  induction c with
  | nil => decide
  | cons b rest ih =>
    have hb : b.toNat + 1 ≤ 256 := b.isLt
    calc b.toNat * 256 ^ rest.length + valBe rest
        < (b.toNat + 1) * 256 ^ rest.length := by rw [Nat.succ_mul]; omega
      _ ≤ 256 ^ (b :: rest).length := by rw [List.length_cons, pow_succ']; exact Nat.mul_le_mul_right _ hb

/-- A byte that is incremented counts on by one, or wraps and carries 256. -/
theorem byte_succ_toNat (b : Byte) : (b + 1).toNat + (if b + 1 = 0 then 256 else 0) = b.toNat + 1 := by
  have hb := b.isLt
  have hsum : (b + 1).toNat = (b.toNat + 1) % 256 := by rw [BitVec.toNat_add]; rfl
  have hzero : b + 1 = 0 ↔ (b + 1).toNat = 0 := by rw [← BitVec.toNat_inj]; rfl
  simp only [hzero, hsum]
  split <;> omega

theorem incBeCarry_cons_of_carry {rest : Block} (h : (incBeCarry rest).2 = true) (b : Byte) :
    incBeCarry (b :: rest) = ((b + 1) :: (incBeCarry rest).1, decide (b + 1 = 0)) := by
  simp only [incBeCarry, h, if_true]

theorem incBeCarry_cons_of_noCarry {rest : Block} (h : (incBeCarry rest).2 = false) (b : Byte) :
    incBeCarry (b :: rest) = (b :: (incBeCarry rest).1, false) := by
  simp only [incBeCarry, h, Bool.false_eq_true, if_false]

/-- The loop of `inc_be` adds one to the number; its flag is the carry out of the first byte (42_datapath.md R182). -/
theorem valBe_incBeCarry (c : Block) :
    valBe (incBeCarry c).1 + (if (incBeCarry c).2 then 256 ^ c.length else 0) = valBe c + 1 := by
  induction c with
  | nil => rfl
  | cons b rest ih =>
    cases hcarry : (incBeCarry rest).2 with
    | true =>
      have hb := congrArg (· * 256 ^ rest.length) (byte_succ_toNat b)
      simp only [Nat.add_mul, ite_mul, Nat.zero_mul, Nat.one_mul] at hb
      rw [hcarry, if_pos rfl] at ih
      simp only [incBeCarry_cons_of_carry hcarry, valBe, incBeCarry_length, decide_eq_true_eq, List.length_cons, pow_succ']
      omega
    | false =>
      rw [hcarry, if_neg Bool.false_ne_true] at ih
      simp only [incBeCarry_cons_of_noCarry hcarry, valBe, incBeCarry_length, Bool.false_eq_true, if_false]
      omega

/-- `inc_be` adds one to the number, modulo 256^BS (42_datapath.md R183). -/
theorem valBe_incBe (c : Block) : valBe (incBe c) = (valBe c + 1) % 256 ^ c.length := by
  have hlt := valBe_lt (incBeCarry c).1
  rw [incBeCarry_length] at hlt
  rw [incBe, ← valBe_incBeCarry c]
  split
  · rw [Nat.add_mod_right, Nat.mod_eq_of_lt hlt]
  · rw [Nat.add_zero, Nat.mod_eq_of_lt hlt]

theorem incBe_iterate_length (n : Nat) (c : Block) : (incBe^[n] c).length = c.length := by
  induction n with
  | zero => rfl
  | succ n ih => rw [Function.iterate_succ_apply', incBe_length, ih]

theorem valBe_incBe_iterate (n : Nat) (c : Block) : valBe (incBe^[n] c) = (valBe c + n) % 256 ^ c.length := by
  induction n with
  | zero => exact (Nat.mod_eq_of_lt (valBe_lt c)).symm
  | succ n ih =>
    rw [Function.iterate_succ_apply', valBe_incBe, incBe_iterate_length, ih, Nat.mod_add_mod, Nat.add_assoc]

/-! ## Rules whose chaining state does not depend on the data -/

/-- Block k of such a stream is made from the chaining state moved on k times. -/
theorem stream_dataFree {rule : Chain → Block → Block × Chain} {out : Chain → Block → Block} {next : Chain → Chain}
    (hrule : ∀ c x, rule c x = (out c x, next c)) (l : List Block) (c : Chain) :
    stream rule l c = (l.mapIdx (fun k x => out (next^[k] c) x), next^[l.length] c) := by
  induction l generalizing c with
  | nil => rfl
  | cons x l ih =>
    simp only [stream, hrule, ih, List.mapIdx_cons, List.length_cons, Function.iterate_succ_apply,
      Function.iterate_zero_apply]

/-- Block k of BUF after a command of such a row is made from block k before it and the chaining state moved on k
times. -/
theorem exec_dataFree {d : Dir} {p : Route} {len : Nat} {s : State} {out : Chain → Block → Block} {next : Chain → Chain}
    (hrule : ∀ c x, s.block d p c x = (out c x, next c)) (h : EngineInv s) (hr : Runs len s) (hc : s.capable d = true)
    (hp : route s.build.ctrle s.mode = some p) :
    ∃ t, exec (d.instr len) s = .next t ∧ t.chain = next^[len / s.bs] s.chain ∧
      ∀ k < len / s.bs, t.memRead (k * s.bs) s.bs = out (next^[k] s.chain) (s.memRead (k * s.bs) s.bs) := by
  obtain ⟨t, ht, hout, -, hframe⟩ := exec_streams hr hc hp h.chainSized
  have hbs : t.bs = s.bs := (congrArg State.bs hframe :)
  have hchain : t.chain = (stream (s.block d p) (blocksOf s (len / s.bs)) s.chain).2 := (congrArg State.chain hframe :)
  rw [stream_dataFree hrule] at hout hchain
  refine ⟨t, ht, by simpa [blocksOf] using hchain, fun k hk => ?_⟩
  have hk' := congrArg (·[k]?) hout
  simpa [blocksOf_getElem? hk, hbs] using hk'

/-- The same of a row that has one rule in both directions, given CAN_ENC, and CAN_DEC for DECRYPT (41_decrypt.md R151,
R159). -/
theorem exec_keystream {i : Instr} {p : Route} {len : Nat} {s : State} {out : Chain → Block → Block}
    {next : Chain → Chain} (henc : ∀ c x, encBlock p s.enc c x = (out c x, next c))
    (hdec : ∀ c x, decBlock p s.enc s.dec c x = (out c x, next c)) (h : EngineInv s) (hr : Runs len s)
    (hp : route s.build.ctrle s.mode = some p) (he : s.canEnc = true)
    (hi : i = .enc len ∨ (i = .dec len ∧ s.canDec = true)) :
    ∃ t, exec i s = .next t ∧ t.chain = next^[len / s.bs] s.chain ∧
      ∀ k < len / s.bs, t.memRead (k * s.bs) s.bs = out (next^[k] s.chain) (s.memRead (k * s.bs) s.bs) := by
  rcases hi with rfl | ⟨rfl, hd⟩
  · exact exec_dataFree (d := .encrypt) henc h hr he hp
  · exact exec_dataFree (d := .decrypt) hdec h hr ((decCapable_iff hp).mpr ⟨hd, fun _ => he⟩) hp

/-- What a block of CTR does to the chaining state (R128). -/
def Chain.countOn (c : Chain) : Chain := { c with ctr := incBe c.ctr }

/-- What a block of OFB does to the chaining state (R127). -/
def Chain.feedBack (enc : Block → Block) (c : Chain) : Chain := { c with iv := enc c.iv }

theorem Chain.countOn_iterate (n : Nat) (c : Chain) : Chain.countOn^[n] c = { c with ctr := incBe^[n] c.ctr } := by
  induction n with
  | zero => rfl
  | succ n ih => rw [Function.iterate_succ_apply', ih, Function.iterate_succ_apply']; rfl

theorem Chain.feedBack_iterate (enc : Block → Block) (n : Nat) (c : Chain) :
    (Chain.feedBack enc)^[n] c = { c with iv := enc^[n] c.iv } := by
  induction n with
  | zero => rfl
  | succ n ih => rw [Function.iterate_succ_apply', ih, Function.iterate_succ_apply']; rfl

end Sys2Proof.Machine

namespace Sys2Proof.Proofs

open Sys2Proof.Machine

/-- Settles O39: the block rule of ECB neither reads nor moves the chaining state. -/
theorem ecbBlocksAreIndependent : Obligations.EcbBlocksAreIndependent := by
  intro len s h hr hm
  have hp : route s.build.ctrle s.mode = some .ecb := by rw [hm]; rfl
  refine ⟨fun hc => ?_, fun hd => ?_⟩
  · obtain ⟨t, ht, -, hout⟩ :=
      exec_dataFree (d := .encrypt) (out := fun _ => s.enc) (next := id) (fun _ _ => rfl) h hr hc hp
    exact ⟨t, ht, hout⟩
  · obtain ⟨t, ht, -, hout⟩ := exec_dataFree (d := .decrypt) (out := fun _ => s.dec) (next := id) (fun _ _ => rfl) h hr
      ((decCapable_iff hp).mpr ⟨hd, nofun⟩) hp
    exact ⟨t, ht, hout⟩

/-- Settles O40: a block of CTR counts CTR on, whatever its data. -/
theorem ctrKeystream : Obligations.CtrKeystream := by
  intro len s i h hr hm he hi
  have hp : route s.build.ctrle s.mode = some .ctr := by rw [hm]; rfl
  obtain ⟨t, ht, hchain, hout⟩ := exec_keystream (out := fun c x => xorBlock x (s.enc (xorBlock c.ctr c.iv)))
    (next := Chain.countOn) (fun _ _ => rfl) (fun _ _ => rfl) h hr hp he hi
  simp only [Chain.countOn_iterate] at hchain hout
  have hiv : t.iv = s.iv := congrArg Chain.iv hchain
  have hctr : t.ctr = incBe^[len / s.bs] s.ctr := congrArg Chain.ctr hchain
  refine ⟨t, ht, hiv, ?_, hout⟩
  rw [hctr, valBe_incBe_iterate, h.ctrBytes]

/-- Settles O41: a block of OFB replaces IV by Enc of it, whatever its data. -/
theorem ofbKeystream : Obligations.OfbKeystream := by
  intro len s i h hr hm he hi
  have hp : route s.build.ctrle s.mode = some .ofb := by rw [hm]; rfl
  obtain ⟨t, ht, hchain, hout⟩ := exec_keystream (out := fun c x => xorBlock x (s.enc c.iv))
    (next := Chain.feedBack s.enc) (fun _ _ => rfl) (fun _ _ => rfl) h hr hp he hi
  simp only [Chain.feedBack_iterate, ← Function.iterate_succ_apply' s.enc] at hchain hout
  exact ⟨t, ht, congrArg Chain.iv hchain, congrArg Chain.ctr hchain, hout⟩

end Sys2Proof.Proofs
end

