-- ==== Sys2Proof/Proofs/Decrypt.lean ====
section
/-! PROOF. DECRYPT on its own: its capability check (41_decrypt.md R151), the keystream rows, where it is ENCRYPT
(R159), and the chaining of CBC (R153). -/

namespace Sys2Proof.Machine

open Sys2Proof.Statements

/-! ## The capability check -/

/-- The modes whose DECRYPT needs CAN_ENC, written out (41_decrypt.md R151). -/
theorem State.decNeedsEnc_iff (s : State) : s.decNeedsEnc = true ↔
    s.mode = 3 ∨ s.mode = 4 ∨ s.mode = 5 ∨ (s.mode = 6 ∧ s.build.ctrle = .littleEndian) := by
  rw [State.decNeedsEnc]
  generalize s.mode = m
  revert m
  cases s.build.ctrle <;> decide

/-- `dec_capable()`, written out (41_decrypt.md R151); also of a MODE that is not legal. -/
theorem State.decCapable_eq_true_iff (s : State) : s.decCapable = true ↔ s.canDec = true ∧
    (s.mode = 3 ∨ s.mode = 4 ∨ s.mode = 5 ∨ (s.mode = 6 ∧ s.build.ctrle = .littleEndian) → s.canEnc = true) := by
  rw [← State.decNeedsEnc_iff, State.decCapable]
  cases s.decNeedsEnc <;> simp

theorem ResultCode.code_injective : Function.Injective ResultCode.code := by
  intro a b
  cases a <;> cases b <;> decide

/-- E_CAP is the first of the argument checks, and no later one reports it (60_exceptions.md R264). -/
theorem cryptError_eq_eCap_iff {d : Dir} {len : Nat} {s : State} :
    cryptError d len s = some .eCap ↔ s.capable d = false := by
  unfold cryptError
  split_ifs <;> simp_all

theorem crypt_of_incapable {d : Dir} {s : State} (hc : s.capable d = false) (len : Nat) :
    crypt d len s = s.setResult .eCap := by
  rw [crypt, cryptError_eq_eCap_iff.mpr hc]
  rfl

theorem crypt_result_ne_eCap {d : Dir} {s : State} (hc : s.capable d = true) (len : Nat) :
    (crypt d len s).result ≠ ResultCode.eCap.code := by
  rcases crypt_cases d len s with ⟨e, -, -, he, hcrypt⟩ | ⟨-, -, hcrypt⟩ | ⟨p, -, -, hcrypt⟩ <;> rw [hcrypt]
  · intro hcode
    rw [ResultCode.code_injective hcode, cryptError_eq_eCap_iff, hc] at he
    cases he
  · exact ResultCode.code_injective.ne (a₁ := .eFault) nofun
  · exact ResultCode.code_injective.ne (a₁ := .ok) nofun

/-! ## Rows with one rule in both directions -/

theorem runBlocks_eq_of_block_eq {d e : Dir} {p : Route} (hrule : ∀ t : State, t.block d p = t.block e p) (n k : Nat)
    (s : State) : runBlocks d p n k s = runBlocks e p n k s := by
  induction n generalizing k s with
  | zero => rfl
  | succ n ih =>
    have hstep : blockStep d p k s = blockStep e p k s := by simp only [blockStep, hrule]
    rw [runBlocks, runBlocks, hstep, ih]

/-- Where a row has one block rule in both directions, and both are as capable, ENCRYPT and DECRYPT are one command. -/
theorem crypt_eq_of_block_eq {d e : Dir} {p : Route} {s : State} (hrule : ∀ t : State, t.block d p = t.block e p)
    (hp : route s.build.ctrle s.mode = some p) (hc : s.capable d = s.capable e) (len : Nat) :
    crypt d len s = crypt e len s := by
  have herror : cryptError d len s = cryptError e len s := by simp only [cryptError, hc]
  simp only [crypt, herror, hp, runBlocks_eq_of_block_eq hrule]

/-- On a handle with both capabilities such a row's DEC is its ENC (41_decrypt.md R159). -/
theorem exec_dec_eq_exec_enc {p : Route} {s : State} (hrule : ∀ t : State, t.block .decrypt p = t.block .encrypt p)
    (hp : route s.build.ctrle s.mode = some p) (he : s.canEnc = true) (hd : s.canDec = true) (len : Nat) :
    exec (.dec len) s = exec (.enc len) s := by
  have hc : s.capable .decrypt = s.capable .encrypt :=
    ((decCapable_iff hp).mpr ⟨hd, fun _ => he⟩).trans he.symm
  have heffect : effect (.dec len) s = effect (.enc len) s := crypt_eq_of_block_eq hrule hp hc len
  rw [exec_eq_effect, exec_eq_effect, unlessFault_eq, unlessFault_eq, heffect]

/-! ## The chaining of CBC -/

/-- Every ciphertext block is the IV of the next one (41_decrypt.md R153). -/
theorem stream_decCbc (dec : Block → Block) (l : List Block) (c : Chain) :
    stream (decCbc dec) l c =
      (List.zipWith (fun x v => xorBlock (dec x) v) l (c.iv :: l), { c with iv := l.getLastD c.iv }) := by
  induction l generalizing c with
  | nil => rfl
  | cons x l ih => simp only [stream, decCbc, ih, List.zipWith_cons_cons, List.getLastD_cons]

/-- The last of the first n + 1 blocks of BUF. -/
theorem blocksOf_getLastD (s : State) (n : Nat) (v : Block) :
    (blocksOf s (n + 1)).getLastD v = s.memRead (n * s.bs) s.bs := by
  rw [blocksOf, List.range_succ, List.map_append, List.map_singleton, List.getLastD_concat]

end Sys2Proof.Machine

namespace Sys2Proof.Proofs

open Sys2Proof.Machine Sys2Proof.Statements

/-- Settles O25: without the capabilities E_CAP is the first check that fails, and with them no outcome is E_CAP. -/
theorem decryptCapabilityCheck : Obligations.DecryptCapabilityCheck := by
  intro len s hf
  rw [exec_of_noFault hf]
  refine ⟨fun hnot => ?_, fun hcap => ⟨_, rfl, ?_⟩⟩
  · have hc : s.capable .decrypt = false := Bool.eq_false_iff.mpr (mt s.decCapable_eq_true_iff.mp hnot)
    exact congrArg _ (crypt_of_incapable hc len)
  · exact crypt_result_ne_eCap (d := .decrypt) (s.decCapable_eq_true_iff.mpr hcap) len

/-- Settles O42: the outputs of a CBC stream are Dec of each block XOR the one before it, with IV before the first. -/
theorem cbcDecryptChains : Obligations.CbcDecryptChains := by
  intro len s h hr hm hd
  have hp : route s.build.ctrle s.mode = some .cbc := by rw [hm]; rfl
  have hc : s.capable .decrypt = true := (decCapable_iff hp).mpr ⟨hd, nofun⟩
  obtain ⟨t, ht, hout, -, hframe⟩ := exec_streams hr hc hp h.chainSized
  have hbs : t.bs = s.bs := (congrArg State.bs hframe :)
  have hwhole : s.bs ∣ len := Nat.dvd_of_mod_eq_zero hr.whole
  have hiv : t.iv = (stream (decCbc s.dec) (blocksOf s (len / s.bs)) s.chain).2.iv := (congrArg State.iv hframe :)
  change _ = (stream (decCbc s.dec) _ _).1 at hout
  rw [stream_decCbc] at hout hiv
  refine ⟨t, ht, fun hlen => ?_, fun k hk => ?_⟩
  · have hpos : 0 < len / s.bs := Nat.div_pos (Nat.le_of_dvd hlen hwhole) h.bs_pos
    obtain ⟨n, hn⟩ := Nat.exists_eq_succ_of_ne_zero hpos.ne'
    have hlast : len - s.bs = n * s.bs := by rw [← Nat.div_mul_cancel hwhole, hn, Nat.succ_mul, Nat.add_sub_cancel]
    have hfirst := congrArg (·[0]?) hout
    refine ⟨by simpa [blocksOf_getElem? hpos, List.getElem?_zipWith, hbs] using hfirst, ?_⟩
    rw [hiv, hn, blocksOf_getLastD, hlast]
  · have hnext := congrArg (·[k + 1]?) hout
    simpa [blocksOf_getElem? hk, blocksOf_getElem? (Nat.lt_of_succ_lt hk), List.getElem?_zipWith, hbs] using hnext

/-- Settles O43: these three rows have one block rule in both directions, and both capability checks pass. -/
theorem keystreamDecryptIsEncrypt : Obligations.KeystreamDecryptIsEncrypt := by
  intro len s he hd hm
  rcases hm with hm | hm | ⟨hm, hpol⟩
  · exact exec_dec_eq_exec_enc (p := .ofb) (fun _ => rfl) (by rw [hm]; rfl) he hd len
  · exact exec_dec_eq_exec_enc (p := .ctr) (fun _ => rfl) (by rw [hm]; rfl) he hd len
  · exact exec_dec_eq_exec_enc (p := .ctrLe) (fun _ => rfl) (by rw [hm, hpol]; rfl) he hd len

end Sys2Proof.Proofs
end

