-- ==== Sys2Proof/Proofs/RoundTrip.lean ====
section
/-! PROOF. Encryption and decryption from one armed state undo each other (41_decrypt.md R161): the two block rules of a
row are inverse on a chaining state, so a stream of them is, and SET_MODE brings the chaining state back
(43_configuration.md R213, R215, R219). -/

namespace Sys2Proof.Machine

open Sys2Proof.Statements

/-! ## The block rules -/

theorem xorBlock_comm (a b : Block) : xorBlock a b = xorBlock b a :=
  List.zipWith_comm_of_comm fun x y => BitVec.xor_comm x y

theorem xorBlock_xorBlock_self {a b : Block} (h : a.length = b.length) : xorBlock (xorBlock a b) b = a := by
  refine List.ext_getElem (by simp [h]) fun i _ _ => ?_
  simp only [xorBlock, List.getElem_zipWith, BitVec.xor_assoc, BitVec.xor_self, BitVec.xor_zero]

section
variable {n : Nat} {enc dec : Block → Block} (he : ∀ x, (enc x).length = n)
  (hinv : ∀ x, x.length = n → dec (enc x) = x)
include he hinv

/-- From one chaining state DecBlock takes EncBlock's output back to its input, and both leave one chaining state. -/
theorem decBlock_encBlock (p : Route) {c : Chain} {x : Block} (hc : c.sized n) (hx : x.length = n) :
    decBlock p enc dec c (encBlock p enc c x).1 = (x, (encBlock p enc c x).2) := by
  obtain ⟨hiv, -⟩ := hc
  have hkey : ∀ y, xorBlock (xorBlock x (enc y)) (enc y) = x := fun y => xorBlock_xorBlock_self (hx.trans (he y).symm)
  have hchain : xorBlock (dec (enc (xorBlock x c.iv))) c.iv = x := by
    rw [hinv _ (by simp [hx, hiv]), xorBlock_xorBlock_self (hx.trans hiv.symm)]
  cases p with
  | ecb => simp only [decBlock, decEcb, encBlock, encEcb, hinv x hx]
  | cbc => simp only [decBlock, decCbc, encBlock, encCbc, hchain]
  | pcbc =>
    simp only [decBlock, decPcbc, encBlock, encPcbc, hchain]
    rw [xorBlock_comm x (enc _)]
  | cfb => simp only [decBlock, decCfb, encBlock, encCfb, hkey]
  | ofb => simp only [decBlock, decOfb, encBlock, encOfb, hkey]
  | ctr => simp only [decBlock, decCtr, encBlock, encCtr, hkey]
  | ctrLe => simp only [decBlock, decCtrLe, encBlock, encCtrLe, hkey]
  | ecbFallback => simp only [decBlock, decEcbFallback, encBlock, encEcbFallback, hinv x hx]

/-- A stream of DecBlock takes the outputs of a stream of EncBlock back to its inputs, block by block. -/
theorem stream_decBlock_encBlock (p : Route) {l : List Block} (hl : ∀ x ∈ l, x.length = n) {c : Chain}
    (hc : c.sized n) :
    stream (decBlock p enc dec) (stream (encBlock p enc) l c).1 c = (l, (stream (encBlock p enc) l c).2) := by
  induction l generalizing c with
  | nil => rfl
  | cons x l ih =>
    obtain ⟨hx, hrest⟩ := List.forall_mem_cons.mp hl
    have hblock := decBlock_encBlock he hinv p hc hx
    have htail := ih hrest (encBlock_sized he p hc hx).2
    simp only [stream, hblock, htail]

end

theorem blocksOf_sized (s : State) (n : Nat) : ∀ x ∈ blocksOf s n, x.length = s.bs := by
  simp [blocksOf]

/-- The first n blocks of BUF are its first n · BS bytes. -/
theorem blocksOf_eq_iff {s t : State} (hbs : t.bs = s.bs) {n : Nat} :
    blocksOf t n = blocksOf s n ↔ ∀ off < n * s.bs, t.bufByte off = s.bufByte off := by
  have hread := State.memRead_eq_iff (s := s) (t := t) (o := 0) (o' := 0) (n := n * s.bs)
  simp only [Nat.zero_add] at hread
  rw [← hread, blocksOf_eq_blocksFrom, blocksOf_eq_blocksFrom]
  refine ⟨fun h => ?_, fun h => blocksFrom_congr hbs (by simpa using h)⟩
  simpa [blocksFrom_flatten, hbs] using congrArg List.flatten h

/-! ## Arming again -/

/-- A SETMODE row is SET_MODE of some code (30_encoding.md R95). -/
theorem effect_of_mem_setmodeRows {i : Instr} {ivlen : Nat} (h : i ∈ setmodeRows ivlen) :
    ∃ m, effect i = setMode m ivlen := by
  have hrows : setmodeRows ivlen = (List.range 8).map (fun m => setmodeRow m ivlen) := rfl
  rw [hrows] at h
  obtain ⟨m, hm, rfl⟩ := List.mem_map.mp h
  exact ⟨_, effect_setmodeRow (List.mem_range.mp hm) ivlen⟩

@[simp] theorem setMode_bufByte (m : BitVec 3) (ivlen : Nat) (s : State) (off : Nat) :
    (setMode m ivlen s).bufByte off = s.bufByte off := by
  rcases setMode_cases m ivlen s with ⟨e, -, -, -, he⟩ | ⟨-, he⟩ | ⟨-, -, -, -, he⟩ <;> rw [he]
  · rfl
  · simp only [armEcb, State.bufByte_setResult, State.bufByte_setMode, State.bufByte_setCtr, State.bufByte_setIv]
  · simp only [armIv, State.bufByte_setResult, State.bufByte_setMode, State.bufByte_setCtr, State.bufByte_setIv]

theorem setMode_zero (ivlen : Nat) (s : State) : setMode 0 ivlen s = armEcb s := rfl

theorem setMode_eq_armIv {m : BitVec 3} {ivlen : Nat} {s : State} (h0 : m ≠ 0) (h7 : m ≠ 7)
    (h6 : ¬(m = 6 ∧ s.build.ctrle = .reject)) (hl : ivlen = s.bs) : setMode m ivlen s = armIv m s := by
  simp only [setMode, setModeError, h0, h7, h6, hl, ne_eq, not_true_eq_false, if_false]

/-- What a successful SET_MODE armed, the same SET_MODE arms again, whatever became of IV, CTR, RESULT and BUF since
(43_configuration.md R219, R220). -/
theorem setMode_again {m : BitVec 3} {ivlen : Nat} {s : State} (hok : (setMode m ivlen s).result = 0) (iv ctr : Block)
    (result : BitVec 4) (buf : Memory) :
    setMode m ivlen { setMode m ivlen s with iv := iv, ctr := ctr, result := result, buf := buf } =
      (setMode m ivlen s).setBuf buf := by
  rcases setMode_cases m ivlen s with ⟨e, hne, -, -, he⟩ | ⟨rfl, he⟩ | ⟨h0, h7, h6, hl, he⟩
  · rw [he] at hok
    exact absurd (ResultCode.code_injective (a₂ := .ok) hok) hne
  · simp only [he, armEcb_eq, setMode_zero, State.setBuf]
  · simp only [he, armIv_eq, State.setBuf]
    rw [setMode_eq_armIv h0 h7 ?_ ?_, armIv_eq]
    exacts [h6, hl]

/-! ## The commands -/

/-- ENC, and DEC from the same state but for the ciphertext in BUF, give the blocks back (41_decrypt.md R161). -/
theorem enc_dec_roundTrip {len : Nat} {s : State} (h : EngineInv s) (he : s.canEnc = true) (hd : s.canDec = true)
    (hr : Runs len s) :
    ∃ (t u : State) (c : Chain), exec (.enc len) s = .next t ∧
      t = { s with iv := c.iv, ctr := c.ctr, result := 0, buf := t.buf } ∧
      exec (.dec len) (s.setBuf t.buf) = .next u ∧ u.result = 0 ∧ ∀ off < len, u.bufByte off = s.bufByte off := by
  obtain ⟨p, hp⟩ := Option.isSome_iff_exists.mp h.mode
  obtain ⟨t, ht, hcipher, -, hframe⟩ := exec_streams (d := .encrypt) hr he hp h.chainSized
  have hrw : Runs len (s.setBuf t.buf) := ⟨hr.noFault, hr.whole, hr.fits⟩
  have hcw : (s.setBuf t.buf).capable .decrypt = true := (decCapable_iff hp).mpr ⟨hd, fun _ => he⟩
  obtain ⟨u, hu, hplain, -, huframe⟩ := exec_streams hrw hcw hp h.chainSized
  have hw : blocksOf t (len / s.bs) = blocksOf (s.setBuf t.buf) (len / s.bs) :=
    (congrArg (blocksOf · (len / s.bs)) hframe :)
  have hstream := stream_decBlock_encBlock s.enc_length (fun x => State.dec_enc he hd) p
    (blocksOf_sized s (len / s.bs)) h.chainSized
  have hback : blocksOf u (len / s.bs) = blocksOf s (len / s.bs) :=
    calc blocksOf u (len / s.bs)
        = (stream (decBlock p s.enc s.dec) (blocksOf (s.setBuf t.buf) (len / s.bs)) s.chain).1 := hplain
      _ = blocksOf s (len / s.bs) := by rw [← hw, hcipher]; exact congrArg Prod.fst hstream
  have hbs : u.bs = s.bs := (congrArg State.bs huframe :)
  refine ⟨t, u, _, ht, hframe, hu, (congrArg State.result huframe :), ?_⟩
  rw [blocksOf_eq_iff hbs, Nat.div_mul_cancel (Nat.dvd_of_mod_eq_zero hr.whole)] at hback
  exact hback

end Sys2Proof.Machine

namespace Sys2Proof.Proofs

open Sys2Proof.Machine Sys2Proof.Statements

/-- Settles O44: ENC leaves all but IV, CTR, RESULT and BUF as the first SETMODE armed them, so the second SETMODE gives
DEC the state ENC began from, with the ciphertext in BUF. -/
theorem roundTrip : Obligations.RoundTrip := by
  intro len ivlen arm s s1 h he hd hr harm hs1 hok
  obtain ⟨m, hm⟩ := effect_of_mem_setmodeRows harm
  rw [exec_of_noFault h.noFault, hm] at hs1
  cases hs1
  have hkept := setMode_unwritten m ivlen s
  have h1 : EngineInv (setMode m ivlen s) := h.setMode m ivlen
  have hbs : (setMode m ivlen s).bs = s.bs := (congrArg State.bs hkept :)
  have hbuild : (setMode m ivlen s).build = s.build := (congrArg State.build hkept :)
  have hr1 : Runs len (setMode m ivlen s) := ⟨h1.noFault, hbs ▸ hr.whole, hbuild ▸ hr.fits⟩
  obtain ⟨t, u, c, ht, hframe, hu, hres, hbytes⟩ :=
    enc_dec_roundTrip h1 ((congrArg State.canEnc hkept :).trans he) ((congrArg State.canDec hkept :).trans hd) hr1
  have hagain := setMode_again hok c.iv c.ctr 0 t.buf
  have htf : t.fault = false := (congrArg State.fault hframe).trans h1.noFault
  rw [← hframe] at hagain
  refine ⟨t, _, u, ht, ?_, hu, hres, fun off ho => (hbytes off ho).trans (setMode_bufByte m ivlen s off)⟩
  rw [exec_of_noFault htf, hm, hagain]

end Sys2Proof.Proofs
end

