-- ==== Sys2Proof/Proofs/Datapath.lean ====
section
/-! PROOF. The datapath on its own: the XOR combiner (42_datapath.md R181), the two counter increments (R183, R184) and
the one adapter call of a block rule (R190, R191). -/

namespace Sys2Proof.Machine

open Sys2Proof.Statements

/-! ## The XOR combiner -/

theorem xorBlock_assoc (a b c : Block) : xorBlock (xorBlock a b) c = xorBlock a (xorBlock b c) := by
  refine List.ext_getElem (by simp [Nat.min_assoc]) fun i _ _ => ?_
  simp only [xorBlock, List.getElem_zipWith, BitVec.xor_assoc]

theorem xorBlock_self (a : Block) : xorBlock a a = List.replicate a.length 0 := by
  refine List.ext_getElem (by simp) fun i _ _ => ?_
  simp only [xorBlock, List.getElem_zipWith, BitVec.xor_self, List.getElem_replicate]
  rfl

theorem xorBlock_zero (a : Block) : xorBlock a (List.replicate a.length 0) = a := by
  refine List.ext_getElem (by simp) fun i _ _ => ?_
  simp only [xorBlock, List.getElem_zipWith, List.getElem_replicate]
  exact BitVec.xor_zero

/-- A block that is XORed with a block of its length can be told from the result. -/
theorem xorBlock_right_cancel {x y z : Block} (hy : y.length = x.length) (hz : z.length = x.length)
    (h : xorBlock y x = xorBlock z x) : y = z := by
  rw [← xorBlock_xorBlock_self hy, h, xorBlock_xorBlock_self hz]

theorem xorBlock_left_cancel {x y z : Block} (hy : y.length = x.length) (hz : z.length = x.length)
    (h : xorBlock x y = xorBlock x z) : y = z :=
  xorBlock_right_cancel hy hz (by rw [xorBlock_comm y, h, xorBlock_comm z])

/-! ## The counter increments -/

/-- The modulus of an n-byte number as R183 and R184 write it, and as the lemmas here do. -/
theorem two_pow_eight_mul (n : Nat) : 2 ^ (8 * n) = 256 ^ n := Nat.pow_mul 2 8 n

/-- Every byte of the all-FF block wraps, and the carry runs out of its first byte (42_datapath.md R183). -/
theorem incBeCarry_allFF (n : Nat) : incBeCarry (List.replicate n 0xFF) = (List.replicate n 0, true) := by
  induction n with
  | zero => rfl
  | succ n ih =>
    rw [List.replicate_succ, incBeCarry_cons_of_carry (congrArg Prod.snd ih), ih]
    rfl

theorem valLe_lt (c : Block) : valLe c < 256 ^ c.length := by
  induction c with
  | nil => decide
  | cons b rest ih =>
    have hb := b.isLt
    rw [valLe, List.length_cons, pow_succ']
    omega

/-- `inc_le` adds one to the number, modulo 256^BS (42_datapath.md R184). -/
theorem valLe_incLe (c : Block) : valLe (incLe c) = (valLe c + 1) % 256 ^ c.length := by
  induction c with
  | nil => rfl
  | cons b rest ih =>
    have hb := byte_succ_toNat b
    rw [List.length_cons, pow_succ', incLe]
    split
    next hwrap =>
      have hzero : (b + 1).toNat = 0 := by rw [hwrap]; rfl
      have hff : b.toNat = 255 := by rw [if_pos hwrap, hzero] at hb; omega
      have hcarry : 255 + 256 * valLe rest + 1 = 256 * (valLe rest + 1) := by omega
      calc valLe (0 :: incLe rest) = 256 * valLe (incLe rest) := Nat.zero_add _
        _ = (valLe (b :: rest) + 1) % (256 * 256 ^ rest.length) := by
          rw [ih, valLe, hff, hcarry, Nat.mul_mod_mul_left]
    next hno =>
      have hlt := (b + 1).isLt
      have hrest := valLe_lt rest
      rw [if_neg hno] at hb
      rw [valLe, valLe, Nat.mod_eq_of_lt] <;> omega

/-! ## The router's one call -/

/-- What EncBlock makes of the answer to its adapter call: the block rule with that answer in the call's place. -/
def encFinish (p : Route) (c : Chain) (x answer : Block) : Block × Chain := encBlock p (fun _ => answer) c x

/-- What DecBlock makes of the answer to its adapter call, whichever transform it calls. -/
def decFinish (p : Route) (c : Chain) (x answer : Block) : Block × Chain :=
  decBlock p (fun _ => answer) (fun _ => answer) c x

/-- EncBlock gives out the answer itself, or the input XOR it. -/
theorem encFinish_answerMatters (p : Route) : AnswerMatters (encFinish p) := by
  intro c x y z _ hy hz h
  cases p with
  | ecb | cbc | pcbc | ecbFallback => exact h
  | cfb | ofb | ctr | ctrLe => exact xorBlock_left_cancel hy hz h

/-- DecBlock gives out the answer itself, the answer XOR IV, or the input XOR the answer. -/
theorem decFinish_answerMatters (p : Route) : AnswerMatters (decFinish p) := by
  intro c x y z hc hy hz h
  cases p with
  | ecb | ecbFallback => exact h
  | cbc | pcbc => exact xorBlock_right_cancel (hy.trans hc.symm) (hz.trans hc.symm) h
  | cfb | ofb | ctr | ctrLe => exact xorBlock_left_cancel hy hz h

end Sys2Proof.Machine

namespace Sys2Proof.Proofs

open Sys2Proof.Machine

/-- Settles O46: each law holds byte by byte. -/
theorem xorBlockLaws : Obligations.XorBlockLaws := by
  rintro a b c n rfl _ _
  exact ⟨xorBlock_comm a b, xorBlock_assoc a b c, xorBlock_self a, xorBlock_zero a⟩

/-- Settles O47: the number by `valBe_incBe`, the wrap because every byte of the all-FF block carries. -/
theorem incBeAddsOne : Obligations.IncBeAddsOne := by
  intro c
  rw [two_pow_eight_mul]
  exact ⟨incBe_length c, valBe_incBe c, congrArg Prod.fst (incBeCarry_allFF c.length)⟩

/-- Settles O48, by `valLe_incLe`, an induction along the carry. -/
theorem incLeAddsOne : Obligations.IncLeAddsOne := by
  intro c
  rw [two_pow_eight_mul]
  exact ⟨incLe_length c, valLe_incLe c⟩

/-- Settles O45: in every row the rule with the answer put in its adapter call's place is the rule, and the answer can be
told from the output block. -/
theorem blockRulesMakeTheRouterCall : Obligations.BlockRulesMakeTheRouterCall := fun p =>
  ⟨⟨encFinish p, encFinish_answerMatters p, fun _ _ _ => by cases p <;> rfl⟩,
    ⟨decFinish p, decFinish_answerMatters p, fun _ _ _ _ => by cases p <;> rfl⟩⟩

end Sys2Proof.Proofs
end

