-- ==== Sys2Proof/Proofs/Sequencer.lean ====
section
/-! PROOF. The sequencer's phases run a command to the state it leaves as one step (42_datapath.md R193): from the last
phases back to DECODE, what the transitions from each phase on come to. -/

namespace Sys2Proof.Machine

/-- RUN(k) with m + 1 blocks to go takes one transition a block, and DONE the last one. -/
theorem sequencerRun_run (d : Dir) (p : Route) {m n k : Nat} (h : k + (m + 1) = n) (s : State) :
    sequencerRun (m + 2) (.run d p n k, s) = (.idle, (runBlocks d p (m + 1) k s).setResult .ok) := by
  induction m generalizing k s with
  | zero =>
    have hlast : ¬ k + 1 < n := by omega
    simp only [sequencerRun, sequencerStep, hlast, if_false, runBlocks]
  | succ m ih =>
    have hmore : k + 1 < n := by omega
    rw [sequencerRun, sequencerStep, if_pos hmore, runBlocks]
    exact ih (by omega) _

theorem sequencerRun_checkSetMode (m : BitVec 3) (ivlen : Nat) (s : State) :
    sequencerRun 1 (checkSetMode m ivlen s) = (.idle, setMode m ivlen s) := by
  unfold checkSetMode setMode
  cases setModeError m ivlen s with
  | some e => rfl
  | none => dsimp only; split <;> rfl

/-- From CHECK of a block command on: its error, the two transitions of the fault entry, or its blocks, of which BUF
holds at most NBUF / BS. -/
theorem sequencerRun_checkCrypt (d : Dir) (len : Nat) (s : State) :
    ∃ n ≤ s.build.nbuf / s.bs + 2, sequencerRun n (checkCrypt d len s) = (.idle, crypt d len s) := by
  rcases crypt_cases d len s with ⟨e, -, -, he, hcrypt⟩ | ⟨he, hr, hcrypt⟩ | ⟨p, he, hr, hcrypt⟩ <;>
    rw [checkCrypt, he, hcrypt]
  · exact ⟨1, Nat.le_add_left_of_le (by decide), rfl⟩
  · rw [hr]
    exact ⟨2, Nat.le_add_left 2 _, rfl⟩
  · rw [hr]
    obtain ⟨-, -, hfits⟩ := cryptError_eq_none.mp he
    have hblocks : len / s.bs ≤ s.build.nbuf / s.bs := Nat.div_le_div_right hfits
    cases hn : len / s.bs with
    | zero => exact ⟨1, by omega, rfl⟩
    | succ m => exact ⟨m + 2, by omega, sequencerRun_run d p (Nat.zero_add _) s⟩

/-- CHECK of a command is that of SET_MODE or of a block command, as the command's effect is. -/
theorem checkInstr_cases : ∀ i : Instr,
    (∃ m ivlen, checkInstr i = checkSetMode m ivlen ∧ effect i = setMode m ivlen) ∨
    (∃ d len, checkInstr i = checkCrypt d len ∧ effect i = crypt d len)
  | .setmodeEcb ivlen => .inl ⟨0, ivlen, rfl, rfl⟩
  | .setmodeCbc ivlen => .inl ⟨1, ivlen, rfl, rfl⟩
  | .setmodePcbc ivlen => .inl ⟨2, ivlen, rfl, rfl⟩
  | .setmodeCfb ivlen => .inl ⟨3, ivlen, rfl, rfl⟩
  | .setmodeOfb ivlen => .inl ⟨4, ivlen, rfl, rfl⟩
  | .setmodeCtr ivlen => .inl ⟨5, ivlen, rfl, rfl⟩
  | .setmodeCtrle ivlen => .inl ⟨6, ivlen, rfl, rfl⟩
  | .setmodeBad ivlen => .inl ⟨7, ivlen, rfl, rfl⟩
  | .enc len => .inr ⟨.encrypt, len, rfl, rfl⟩
  | .dec len => .inr ⟨.decrypt, len, rfl, rfl⟩

theorem sequencerRun_checkInstr (i : Instr) (s : State) :
    ∃ n ≤ s.build.nbuf / s.bs + 2, sequencerRun n (checkInstr i s) = (.idle, effect i s) := by
  rcases checkInstr_cases i with ⟨m, ivlen, hcheck, heffect⟩ | ⟨d, len, hcheck, heffect⟩ <;> rw [hcheck, heffect]
  · exact ⟨1, Nat.le_add_left_of_le (by decide), sequencerRun_checkSetMode m ivlen s⟩
  · exact sequencerRun_checkCrypt d len s

/-! ## DECODE -/

section
variable {w : Word} {s : State}

theorem sequencerStep_decode_fault (h : s.fault = true) : sequencerStep (.decode w, s) = (.done .eFault, s) := by
  simp only [sequencerStep, h, if_true]

theorem sequencerStep_decode_error {e : DecodeError} (h : s.fault = false) (hd : decode w = .error e) :
    sequencerStep (.decode w, s) = (.done .eCmd, s) := by
  simp only [sequencerStep, h, hd, Bool.false_eq_true, if_false]

theorem sequencerStep_decode_ok {i : Instr} (h : s.fault = false) (hd : decode w = .ok i) :
    sequencerStep (.decode w, s) = (.check i, s) := by
  simp only [sequencerStep, h, hd, Bool.false_eq_true, if_false]

end

end Sys2Proof.Machine

namespace Sys2Proof.Proofs

open Sys2Proof.Machine

/-- Settles O60: DECODE ends a command at once in the fault state and for an illegal word; else CHECK takes over. -/
theorem sequencerRunsTheCommand : Obligations.SequencerRunsTheCommand := by
  intro w s
  rcases Bool.eq_false_or_eq_true s.fault with hf | hf
  · refine ⟨2, _, Nat.le_add_left_of_le (by decide), command_of_fault hf, ?_⟩
    rw [sequencerRun, sequencerStep_decode_fault hf]
    rfl
  · cases hd : decode w with
    | error e =>
      refine ⟨2, _, Nat.le_add_left_of_le (by decide), command_of_decodeError hf hd, ?_⟩
      rw [sequencerRun, sequencerStep_decode_error hf hd]
      rfl
    | ok i =>
      obtain ⟨n, hn, hrun⟩ := sequencerRun_checkInstr i s
      refine ⟨n + 2, effect i s, by omega, ?_, ?_⟩
      · rw [command_of_noFault hf, wordEffect, hd]
      · rw [sequencerRun, sequencerStep_decode_ok hf hd]
        exact hrun

end Sys2Proof.Proofs
end

