-- ==== Sys2Proof/Proofs/SetMode.lean ====
section
/-! PROOF. SET_MODE (43_configuration.md R210 to R220): what each of its checks answers, the rows that take an IV, and
what a SETMODE command leaves alone. -/

namespace Sys2Proof.Machine

open Sys2Proof.Statements

/-! ## The checks -/

section
variable {m : BitVec 3} {ivlen : Nat} {s : State}

theorem setMode_bad (ivlen : Nat) (s : State) : setMode 7 ivlen s = s.setResult .eMode := rfl

theorem setMode_ctrle_reject (h : s.build.ctrle = .reject) : setMode 6 ivlen s = s.setResult .eUnsupported := by
  have herr : setModeError 6 ivlen s = some .eUnsupported := by
    rw [setModeError, if_neg (by decide), if_pos ⟨rfl, h⟩]
  rw [setMode, herr]
  rfl

theorem setMode_eq_eIv (h0 : m ≠ 0) (h7 : m ≠ 7) (h6 : ¬(m = 6 ∧ s.build.ctrle = .reject)) (hl : ivlen ≠ s.bs) :
    setMode m ivlen s = s.setResult .eIv := by
  have herr : setModeError m ivlen s = some .eIv := by rw [setModeError, if_neg h7, if_neg h6, if_neg h0, if_pos hl]
  rw [setMode, herr]
  rfl

end

/-! ## The rows that take an IV -/

/-- The command is SET_MODE(m, ivlen) of a code that is neither ECB's nor refused whatever IVLEN is. -/
def TakesIv (i : Instr) (m : BitVec 3) (ivlen : Nat) (s : State) : Prop :=
  effect i = setMode m ivlen ∧ m ≠ 0 ∧ m ≠ 7 ∧ ¬(m = 6 ∧ s.build.ctrle = .reject)

section
variable {i : Instr} {m : BitVec 3} {ivlen : Nat} {s : State}

theorem takesIv_of_mem_ivRows {r : Instr × BitVec 3} (h : r ∈ ivRows ivlen) : TakesIv r.1 r.2 ivlen s := by
  have codes : ∀ r ∈ ivRows ivlen, effect r.1 = setMode r.2 ivlen ∧ r.2 ≠ 0 ∧ r.2 ≠ 7 ∧ r.2 ≠ 6 := by
    simp [ivRows, effect]
  obtain ⟨heffect, h0, h7, h6⟩ := codes r h
  exact ⟨heffect, h0, h7, fun hr => h6 hr.1⟩

theorem takesIv_ctrle (h : s.build.ctrle ≠ .reject) : TakesIv (.setmodeCtrle ivlen) 6 ivlen s :=
  ⟨rfl, by decide, by decide, fun hr => h hr.2⟩

theorem TakesIv.exec_refused (h : TakesIv i m ivlen s) (hf : s.fault = false) (hl : ivlen ≠ s.bs) :
    exec i s = .next (s.setResult .eIv) := by
  obtain ⟨heffect, h0, h7, h6⟩ := h
  rw [exec_of_noFault hf, heffect, setMode_eq_eIv h0 h7 h6 hl]

theorem TakesIv.exec_armed (h : TakesIv i m ivlen s) (hf : s.fault = false) (hl : ivlen = s.bs) :
    exec i s = .next { s with iv := s.ivIn.take s.bs, ctr := zeroBlock s.bs, mode := m, result := 0 } := by
  obtain ⟨heffect, h0, h7, h6⟩ := h
  rw [exec_of_noFault hf, heffect, setMode_eq_armIv h0 h7 h6 hl, armIv_eq]

end

/-! ## Every row -/

/-- All that a SETMODE command can do, in the fault state too: fail with a code, or arm for ECB or from IV_IN. -/
theorem exec_setmodeRow_cases {i : Instr} {ivlen : Nat} {s t : State} (hi : i ∈ setmodeRows ivlen)
    (h : exec i s = .next t) : (∃ e, t = s.setResult e) ∨ t = armEcb s ∨ ∃ m, t = armIv m s := by
  rcases Bool.eq_false_or_eq_true s.fault with hf | hf
  · rw [exec_of_fault hf] at h
    cases h
    exact .inl ⟨.eFault, rfl⟩
  · obtain ⟨m, hm⟩ := effect_of_mem_setmodeRows hi
    rw [exec_of_noFault hf, hm] at h
    cases h
    rcases setMode_cases m ivlen s with ⟨e, -, -, -, he⟩ | ⟨-, he⟩ | ⟨-, -, -, -, he⟩
    · exact .inl ⟨e, he⟩
    · exact .inr (.inl he)
    · exact .inr (.inr ⟨m, he⟩)

/-! ## Another cipher and another buffer -/

/-- The state with other capability flags, another adapter and schedule, and other bytes in BUF. -/
def State.withCipher (s : State) (canEnc canDec : Bool) (adapter : Config.Adapter) (schedule : List Byte)
    (buf : Memory) : State :=
  { s with canEnc := canEnc, canDec := canDec, adapter := adapter, schedule := schedule, buf := buf }

section
variable (s : State) (canEnc canDec : Bool) (adapter : Config.Adapter) (schedule : List Byte) (buf : Memory)

/-- The checks of SET_MODE read BS and the policy alone (R210, R220). -/
theorem setModeError_withCipher (m : BitVec 3) (ivlen : Nat) :
    setModeError m ivlen (s.withCipher canEnc canDec adapter schedule buf) = setModeError m ivlen s := rfl

theorem setMode_withCipher (m : BitVec 3) (ivlen : Nat) :
    setMode m ivlen (s.withCipher canEnc canDec adapter schedule buf) =
      (setMode m ivlen s).withCipher canEnc canDec adapter schedule buf := by
  rw [setMode, setMode, setModeError_withCipher]
  cases setModeError m ivlen s with
  | some e => rfl
  | none =>
    by_cases h0 : m = 0
    · simp only [if_pos h0]
      rfl
    · simp only [if_neg h0]
      rfl

theorem exec_setmodeRow_withCipher {i : Instr} {ivlen : Nat} {t : State} (hi : i ∈ setmodeRows ivlen)
    (h : exec i s = .next t) :
    exec i (s.withCipher canEnc canDec adapter schedule buf) =
      .next (t.withCipher canEnc canDec adapter schedule buf) := by
  obtain ⟨m, hm⟩ := effect_of_mem_setmodeRows hi
  rcases Bool.eq_false_or_eq_true s.fault with hf | hf
  · rw [exec_of_fault hf] at h
    cases h
    exact exec_of_fault hf
  · rw [exec_of_noFault hf, hm] at h
    cases h
    rw [← setMode_withCipher, ← hm]
    exact exec_of_noFault hf

end

end Sys2Proof.Machine

namespace Sys2Proof.Proofs

open Sys2Proof.Machine

/-- Settles O21: of what a SETMODE command can do, only a failure leaves a RESULT other than OK. -/
theorem failingSetmodeWritesOnlyResult : Obligations.FailingSetmodeWritesOnlyResult := by
  intro ivlen i s t hi h hfail
  rcases exec_setmodeRow_cases hi h with ⟨e, rfl⟩ | rfl | ⟨m, rfl⟩
  · rfl
  · exact absurd rfl hfail
  · exact absurd rfl hfail

/-- Settles O22: no outcome of a SETMODE command writes these elements, and its checks and effects do not read them. -/
theorem setmodeIgnoresCipherAndBuffer : Obligations.SetmodeIgnoresCipherAndBuffer := by
  intro ivlen i s t canEnc canDec adapter schedule buf hi h
  refine ⟨?_, exec_setmodeRow_withCipher s canEnc canDec adapter schedule buf hi h⟩
  rcases exec_setmodeRow_cases hi h with ⟨e, rfl⟩ | rfl | ⟨m, rfl⟩
  · simp
  · simp [armEcb]
  · simp [armIv]

/-- Settles O16: code 0 passes every check, so SET_MODE clears for ECB. -/
theorem setmodeEcbClears : Obligations.SetmodeEcbClears := by
  intro ivlen s hf
  rw [exec_of_noFault hf, effect, setMode_zero, armEcb_eq]
  rfl

/-- Settles O17: each of these rows takes an IV, and IVLEN is the one it asks for. -/
theorem setmodeArmsIv : Obligations.SetmodeArmsIv :=
  fun _ hf => ⟨fun _ hr => (takesIv_of_mem_ivRows hr).exec_armed hf rfl,
    fun hpolicy => (takesIv_ctrle hpolicy).exec_armed hf rfl⟩

/-- Settles O18: each of these rows takes an IV, and IVLEN is not the one it asks for. -/
theorem setmodeRefusesIvLength : Obligations.SetmodeRefusesIvLength :=
  fun _ _ hf hl => ⟨fun _ hr => (takesIv_of_mem_ivRows hr).exec_refused hf hl,
    fun hpolicy => (takesIv_ctrle hpolicy).exec_refused hf hl⟩

/-- Settles O19: REJECT is checked before IVLEN; under the other policies the row takes an IV. -/
theorem setmodeCtrleFollowsPolicy : Obligations.SetmodeCtrleFollowsPolicy := by
  intro ivlen s hf
  refine ⟨fun hreject => ?_, fun hpolicy hl => (takesIv_ctrle hpolicy).exec_refused hf hl,
    fun hpolicy hl => (takesIv_ctrle hpolicy).exec_armed hf hl⟩
  rw [exec_of_noFault hf, effect, setMode_ctrle_reject hreject]
  rfl

/-- Settles O20: code 7 fails at the first check. -/
theorem setmodeBadFails : Obligations.SetmodeBadFails := by
  intro ivlen s hf
  rw [exec_of_noFault hf, effect, setMode_bad]
  rfl

end Sys2Proof.Proofs
end

