-- ==== Sys2Proof/Proofs/Exceptions.lean ====
section
/-! PROOF. The outcomes of a command and of an access (60_exceptions.md): the first error of a word in its fixed order
(R263, R264), what a failure leaves alone (R262), the fault state (R272, R273), and bus errors (R270). -/

namespace Sys2Proof.Machine

/-- Outside the fault state a command word does what the command it decodes to does (30_encoding.md R101). -/
theorem command_of_decode {w : Word} {s : State} {i : Instr} (hf : s.fault = false) (h : decode w = .ok i) :
    command w s = .next (effect i s) := by
  rw [command_of_noFault hf, wordEffect, h]

/-! ## SET_MODE words -/

/-- The code in a word's MODE field, as the number of the field (30_encoding.md R92). -/
theorem modeField_eq_iff {w : Word} {k : Nat} (hk : k < 8) :
    BitVec.ofNat 3 (bits w 4 3) = BitVec.ofNat 3 k ↔ bits w 4 3 = k := by
  rw [← BitVec.toNat_inj, BitVec.toNat_ofNat, BitVec.toNat_ofNat, Nat.mod_eq_of_lt (bits_lt w 4 3), Nat.mod_eq_of_lt hk]

/-- Outside the fault state a SET_MODE word with no reserved bit is SET_MODE of its fields. -/
theorem command_setMode {w : Word} {s : State} (hf : s.fault = false) (hop : bits w 0 4 = 1) (hbit : bits w 7 1 = 0)
    (hhigh : bits w 16 16 = 0) : command w s = .next (setMode (BitVec.ofNat 3 (bits w 4 3)) (bits w 8 8) s) := by
  have hres : ¬(bits w 16 16 ≠ 0 ∨ bits w 7 1 ≠ 0) := by simp [hbit, hhigh]
  rw [command_of_decode hf ((decode_op1 hop).trans (if_neg hres)), effect_setmodeRow (bits_lt w 4 3)]

/-- SET_MODE succeeds where no check fails (43_configuration.md R213, R215). -/
theorem setMode_result_ok {m : BitVec 3} {ivlen : Nat} {s : State} (h7 : m ≠ 7) (h6 : ¬(m = 6 ∧ s.build.ctrle = .reject))
    (hl : m = 0 ∨ ivlen = s.bs) : (setMode m ivlen s).result = 0 := by
  by_cases h0 : m = 0
  · rw [h0, setMode_zero, armEcb_eq]
  · rw [setMode_eq_armIv h0 h7 h6 (hl.resolve_left h0), armIv_eq]

/-! ## ENCRYPT and DECRYPT words -/

/-- The OP of a direction (30_encoding.md R93). -/
def Dir.op : Dir → Nat
  | .encrypt => 2
  | .decrypt => 3

/-- Outside the fault state an ENCRYPT or DECRYPT word with no reserved bit is that command of its LEN. -/
theorem command_crypt {d : Dir} {w : Word} {s : State} (hf : s.fault = false) (hop : bits w 0 4 = d.op)
    (hres : bits w 4 12 = 0) : command w s = .next (crypt d (bits w 16 16) s) := by
  have hdecode : decode w = .ok (d.instr (bits w 16 16)) := by
    cases d with
    | encrypt => exact (decode_op2 hop).trans (if_neg (not_not.mpr hres))
    | decrypt => exact (decode_op3 hop).trans (if_neg (not_not.mpr hres))
  rw [command_of_decode hf hdecode, effect_instr]

/-- The capability check, by OP (40_encrypt.md R121, 41_decrypt.md R151). -/
theorem capable_iff_of_op {d : Dir} {op : Nat} (hop : op = d.op) (s : State) :
    s.capable d = true ↔ (op = 2 ∧ s.canEnc = true) ∨ (op = 3 ∧ s.decCapable = true) := by
  subst hop
  cases d <;> simp [Dir.op, State.capable]

section
variable {d : Dir} {len : Nat} {s : State}

/-- E_LEN comes next after E_CAP (60_exceptions.md R264). -/
theorem crypt_of_partialBlock (hc : s.capable d = true) (hl : len % s.bs ≠ 0) : crypt d len s = s.setResult .eLen := by
  have herr : cryptError d len s = some .eLen := by simp [cryptError, hc, hl]
  rw [crypt, herr]
  rfl

/-- E_RANGE is the last of the argument checks. -/
theorem crypt_of_outOfRange (hc : s.capable d = true) (hl : len % s.bs = 0) (hn : s.build.nbuf < len) :
    crypt d len s = s.setResult .eRange := by
  have herr : cryptError d len s = some .eRange := by simp [cryptError, hc, hl, hn]
  rw [crypt, herr]
  rfl

/-- Past the argument checks an illegal MODE is the fault entry (60_exceptions.md R272). -/
theorem crypt_of_illegalMode (hc : s.capable d = true) (hl : len % s.bs = 0) (hn : len ≤ s.build.nbuf)
    (hm : legalMode s.build.ctrle s.mode = false) : crypt d len s = enterFault s := by
  have hp : route s.build.ctrle s.mode = none := by simpa [legalMode] using hm
  rw [crypt, cryptError_eq_none.mpr ⟨hc, hl, hn⟩, hp]

theorem crypt_result_ok (hc : s.capable d = true) (hl : len % s.bs = 0) (hn : len ≤ s.build.nbuf)
    (hm : legalMode s.build.ctrle s.mode = true) : (crypt d len s).result = 0 := by
  obtain ⟨p, hp⟩ := Option.isSome_iff_exists.mp hm
  rw [crypt_runs hc hl hn hp]
  rfl

end

/-! ## Every command word -/

/-- All that a command word can end with: a code alone, the fault entry, or OK with FAULT as before
(60_exceptions.md R261, R262). -/
theorem command_outcomes {w : Word} {s t : State} (h : command w s = .next t) :
    (∃ e, t = s.setResult e) ∨ t = enterFault s ∨ (t.result = 0 ∧ t.fault = s.fault) := by
  rcases command_cases h with ⟨e, -, he⟩ | ⟨-, -, rfl⟩ | ⟨-, -, d, rfl⟩
  · exact .inl ⟨e, he⟩
  · rcases setMode_cases (BitVec.ofNat 3 (bits w 4 3)) (bits w 8 8) s with ⟨e, -, -, -, he⟩ | ⟨-, he⟩ | ⟨-, -, -, -, he⟩
    · exact .inl ⟨e, he⟩
    · rw [he]; exact .inr (.inr ⟨rfl, rfl⟩)
    · rw [he]; exact .inr (.inr ⟨rfl, rfl⟩)
  · rcases crypt_cases d (bits w 16 16) s with ⟨e, -, -, -, he⟩ | ⟨-, -, he⟩ | ⟨p, -, -, he⟩
    · exact .inl ⟨e, he⟩
    · exact .inr (.inl he)
    · rw [he]; exact .inr (.inr ⟨rfl, runBlocks_fault d p _ _ s⟩)

/-! ## Bus errors -/

theorem hostAccess_of_busError {a : Access} {s : State} (h : busError s.build.nbuf a ≠ none) :
    hostAccess a s = .next (s.setAnswer .busError) := by
  obtain ⟨c, hc⟩ := Option.ne_none_iff_exists'.mp h
  unfold hostAccess
  rw [hc]

/-- An access that passes the checks completes with an answer that is no error. -/
theorem hostAccess_of_noBusError {a : Access} {s : State} (h : busError s.build.nbuf a = none) :
    ∃ t data, hostAccess a s = .next t ∧ t.answer = some { error := false, data := data } := by
  rcases hostAccess_cases a s with ⟨hb, -⟩ | ⟨_, _, -, -, he⟩ | ⟨_, -, he⟩ | ⟨_, _, _, -, -, -, he⟩
  · rw [h] at hb; cases hb
  · exact ⟨_, _, he, rfl⟩
  · exact ⟨_, _, he, rfl⟩
  · exact ⟨_, _, he, rfl⟩

end Sys2Proof.Machine

namespace Sys2Proof.Proofs

open Sys2Proof.Machine

/-- Settles O26: each error of the order is tested with the ones before it ruled out. -/
theorem cryptErrorPriority : Obligations.CryptErrorPriority := by
  intro w s len capable hop
  obtain ⟨d, hd⟩ : ∃ d : Dir, bits w 0 4 = d.op := hop.elim (fun h => ⟨.encrypt, h⟩) (fun h => ⟨.decrypt, h⟩)
  have hcap : s.capable d = true ↔ capable := capable_iff_of_op hd s
  refine ⟨command_of_fault, fun hf =>
    ⟨fun hres => command_of_decodeError hf (decode_reservedBits (.inr ⟨hop, hres⟩)), fun hres => ?_⟩⟩
  rw [command_crypt hf hd hres]
  refine ⟨fun hc => ?_, fun hc => ⟨fun hl => ?_, fun hl => ⟨fun hn => ?_, fun hn => ⟨fun hm => ?_, fun hm => ?_⟩⟩⟩⟩
  · exact congrArg _ (crypt_of_incapable (Bool.eq_false_iff.mpr (mt hcap.mp hc)) len)
  · exact congrArg _ (crypt_of_partialBlock (hcap.mpr hc) hl)
  · exact congrArg _ (crypt_of_outOfRange (hcap.mpr hc) hl hn)
  · exact congrArg _ (crypt_of_illegalMode (hcap.mpr hc) hl hn hm)
  · exact ⟨_, rfl, crypt_result_ok (hcap.mpr hc) hl hn hm⟩

/-- Settles O27: each error of the order is tested with the ones before it ruled out. -/
theorem setmodeErrorPriority : Obligations.SetmodeErrorPriority := by
  intro w s hop
  have h0 : BitVec.ofNat 3 (bits w 4 3) = 0 ↔ bits w 4 3 = 0 := modeField_eq_iff (by decide)
  have h6 : BitVec.ofNat 3 (bits w 4 3) = 6 ↔ bits w 4 3 = 6 := modeField_eq_iff (by decide)
  have h7 : BitVec.ofNat 3 (bits w 4 3) = 7 ↔ bits w 4 3 = 7 := modeField_eq_iff (by decide)
  refine ⟨command_of_fault, fun hf =>
    ⟨fun hres => command_of_decodeError hf (decode_reservedBits (.inl ⟨hop, hres⟩)), fun hbit hhigh => ?_⟩⟩
  rw [command_setMode hf hop hbit hhigh]
  refine ⟨fun hm => ?_, fun ⟨hm, hpolicy⟩ => ?_, fun hm7 hm6 => ?_⟩
  · rw [h7.mpr hm, setMode_bad]
    rfl
  · rw [h6.mpr hm, setMode_ctrle_reject hpolicy]
    rfl
  · have hne7 := mt h7.mp hm7
    have hne6 := mt (And.imp_left h6.mp) hm6
    exact ⟨fun ⟨hm0, hl⟩ => congrArg _ (setMode_eq_eIv (mt h0.mp hm0) hne7 hne6 hl),
      fun hl => ⟨_, rfl, setMode_result_ok hne7 hne6 (hl.imp_left h0.mpr)⟩⟩

/-- Settles O28: of what a command can end with, only a code alone and the fault entry are failures. -/
theorem failingCommandChangesOnlyResult : Obligations.FailingCommandChangesOnlyResult := by
  intro w s
  obtain ⟨t, ht⟩ : ∃ t, command w s = .next t := ⟨_, command_next w s⟩
  refine ⟨t, ht, ?_⟩
  rcases command_outcomes ht with ⟨e, rfl⟩ | rfl | ⟨hok, hfault⟩
  · exact ⟨e.code_le, fun _ => rfl, fun hf => absurd rfl hf⟩
  · exact ⟨ResultCode.code_le .eFault, fun _ => rfl, fun _ => rfl⟩
  · exact ⟨by rw [hok]; decide, fun hfail => absurd hok hfail, fun hf => absurd hfault hf⟩

/-- Settles O50: the four causes are what the checks of an access test. -/
theorem busErrorsChangeNothing : Obligations.BusErrorsChangeNothing := by
  intro a s addr bad
  have hbad : busError s.build.nbuf a = none ↔ ¬bad := by
    rw [busError_eq_none]
    simp only [bad, addr, not_or, not_not, ne_eq]
  exact ⟨fun h => hostAccess_of_busError (mt hbad.mp (not_not.mpr h)), fun h => hostAccess_of_noBusError (hbad.mpr h)⟩

/-- Settles O29: a CMD write in the fault state sets E_FAULT, and no other access writes FAULT, MODE, IV or CTR. -/
theorem faultStateRefusesCommands : Obligations.FaultStateRefusesCommands := by
  intro s hf
  refine ⟨fun w => ?_, fun a t h => ?_⟩
  · rw [hostAccess_command, command_of_fault hf]
    rfl
  · rcases hostAccess_writers h with ⟨w, u, -, hu, rfl⟩ | ⟨ht, -⟩
    · rw [command_of_fault hf] at hu
      cases hu
      exact ⟨hf, rfl, rfl, rfl⟩
    · rw [ht]
      exact ⟨hf, rfl, rfl, rfl⟩

end Sys2Proof.Proofs
end

