-- ==== Sys2Proof/Proofs/Reset.lean ====
section
/-! PROOF. Construction, release and the machine's turns (70_reset_and_hazards.md R290 to R292, R305, R306): what a
construction refuses and what it leaves, each turn that is no access, and that a port of served interactions never
stops a run. -/

namespace Sys2Proof.Machine

/-! ## Construction -/

/-- The CIPHER_IDs that are reported, with their block sizes (44_introspection.md R243). -/
theorem cipherBlockSize_eq_some_iff {c n : Nat} :
    cipherBlockSize c = some n ↔ (c ≤ 2 ∧ n = 16) ∨ (3 ≤ c ∧ c ≤ 5 ∧ n = 8) := by
  match c with
  | 0 | 1 | 2 | 3 | 4 | 5 =>
    simp only [cipherBlockSize, Option.some.injEq]
    omega
  | _ + 6 =>
    simp only [cipherBlockSize, reduceCtorEq, false_iff]
    omega

theorem Inputs.legal_iff {i : Inputs} :
    i.legal = true ↔
      (blockSize i.adapter = 8 ∨ blockSize i.adapter = 16) ∧
      ((i.cipherId ≤ 2 ∧ blockSize i.adapter = 16) ∨ (3 ≤ i.cipherId ∧ i.cipherId ≤ 5 ∧ blockSize i.adapter = 8)) ∧
      1 ≤ i.keyBytes ∧ i.keyBytes ≤ 8191 := by
  simp only [Inputs.legal, Bool.and_eq_true, Bool.or_eq_true, decide_eq_true_eq, cipherBlockSize_eq_some_iff, and_assoc]

/-- A reported CIPHER_ID fits its register (44_introspection.md R243). -/
theorem Inputs.cipherId_le_of_legal {i : Inputs} (h : i.legal = true) : i.cipherId ≤ 5 := by
  obtain ⟨-, ⟨hid, -⟩ | ⟨-, hid, -⟩, -⟩ := Inputs.legal_iff.mp h
  · omega
  · exact hid

section

variable (b : Config.Build) (n : Nat) (p : List Event) {i : Inputs}

theorem construct_of_legal (h : i.legal = true) : construct b n p i = some (constructed b n p i) := if_pos h

theorem construct_of_illegal (h : i.legal = false) : construct b n p i = none :=
  if_neg (Bool.eq_false_iff.mp h)

theorem construct_isSome_iff : (construct b n p i).isSome = true ↔ i.legal = true := by
  cases h : i.legal
  · rw [construct_of_illegal b n p h]; decide
  · rw [construct_of_legal b n p h]; exact iff_of_true rfl rfl

theorem construct_eq_some_iff {s : State} :
    construct b n p i = some s ↔ i.legal = true ∧ s = constructed b n p i := by
  cases h : i.legal
  · simp [construct_of_illegal b n p h]
  · simp [construct_of_legal b n p h, eq_comm]

theorem constructed_cipherId_toNat (h : i.legal = true) : (constructed b n p i).cipherId.toNat = i.cipherId := by
  have hid : i.cipherId < 2 ^ 8 := lt_of_le_of_lt (Inputs.cipherId_le_of_legal h) (by decide)
  rw [constructed_cipherId, BitVec.toNat_ofNat, Nat.mod_eq_of_lt hid]

/-- No byte of BUF is written yet, so each is the draw of this construction (10_state.md R46; log entry 6). -/
theorem constructed_bufByte (off : Nat) : (constructed b n p i).bufByte off = Config.bufDraw n off := rfl

end

/-! ## The turns that are no access -/

section

variable {s : State} {rest : List Event}

theorem step_construct_of_legal {i : Inputs} (hp : s.port = .construct i :: rest) (h : i.legal = true) :
    step s = .next (constructed s.build (s.draw + 1) rest i) := by
  rw [step_cons hp, serve, construct_of_legal _ _ _ h]
  rfl

theorem step_construct_of_illegal {i : Inputs} (hp : s.port = .construct i :: rest) (h : i.legal = false) :
    step s = .refused .constructionRefused := by
  rw [step_cons hp, serve, construct_of_illegal _ _ _ h]

theorem step_release (hp : s.port = .release :: rest) : step s = .next (s.setPort rest) := step_cons hp

theorem step_accessDuringConstruction {a : Access} (hp : s.port = .accessDuringConstruction a :: rest) :
    step s = .fault .accessDuringConstruction := step_cons hp

/-! ## Ports that never stop a run -/

/-- An access leaves what waits behind it (20_memory.md R72). -/
theorem hostAccess_port {a : Access} {t : State} (h : hostAccess a s = .next t) : t.port = s.port := by
  have hq : hostAccess a s = .next (t.setPort s.port) := hostAccess_setPort_of_next h s.port
  rw [h] at hq
  exact (congrArg State.port (Host.Outcome.next.inj hq) :)

theorem step_access (a : Access) (hp : s.port = .access a :: rest) : ∃ t, step s = .next t ∧ t.port = rest := by
  obtain ⟨t, ht⟩ := hostAccess_next a (s.setPort rest)
  exact ⟨t, (step_cons hp).trans ht, hostAccess_port ht⟩

/-- The port's turn takes one interaction from a servable port and does not stop. -/
theorem step_of_servable (h : s.servable) : ∃ t, step s = .next t ∧ t.port = s.port.tail := by
  rcases hp : s.port with - | ⟨e, rest⟩
  · exact ⟨s, step_idle hp, hp⟩
  · have he : e.served = true := h e (hp ▸ List.mem_cons_self)
    cases e with
    | access a => exact step_access a hp
    | construct i => exact ⟨_, step_construct_of_legal hp he, rfl⟩
    | release => exact ⟨_, step_release hp, rfl⟩
    | accessDuringConstruction a => cases he

theorem step_keeps_servable (h : s.servable) : ∃ t, step s = .next t ∧ t.servable := by
  obtain ⟨t, ht, hport⟩ := step_of_servable h
  exact ⟨t, ht, fun e he => h e (List.mem_of_mem_tail (hport ▸ he))⟩

end

/-- A machine whose every step from P goes on in P runs for any number of steps. -/
theorem run_next_of_step_next {M : Host.Core} {P : M.State → Prop} (hstep : ∀ s, P s → ∃ t, M.step s = .next t ∧ P t)
    (k : Nat) {s : M.State} (hs : P s) : ∃ t, M.run k s = .next t ∧ P t := by
  induction k generalizing s with
  | zero => exact ⟨s, rfl, hs⟩
  | succ k ih =>
    obtain ⟨u, hu, hPu⟩ := hstep s hs
    obtain ⟨t, ht, hPt⟩ := ih hPu
    exact ⟨t, (run_succ_of_next hu).trans ht, hPt⟩

end Sys2Proof.Machine

namespace Sys2Proof.Proofs

open Sys2Proof.Machine

/-- Settles O5: a step takes one interaction from a servable port and goes on, so a run does, and along it the
invariant keeps FAULT at 0. -/
theorem servedRunsNeverStop : Obligations.ServedRunsNeverStop := by
  intro s k hinv hport
  obtain ⟨t, hrun, -⟩ := run_next_of_step_next (M := core) (fun _ => step_keeps_servable) k hport
  have ht : EngineInv t := run_keeps (M := core) (fun _ _ h hstep => EngineInv.step h hstep) hinv hrun
  exact ⟨t, hrun, ht.noFault⟩

/-- Settles O1: construction answers exactly on legal inputs, and then with the constructed state, whose CIPHER_ID fits
its register. -/
theorem constructionGivesResetValues : Obligations.ConstructionGivesResetValues := by
  intro b n p i
  refine ⟨(construct_isSome_iff b n p).trans Inputs.legal_iff, fun s hs => ?_⟩
  obtain ⟨hlegal, rfl⟩ := (construct_eq_some_iff b n p).mp hs
  have hid := constructed_cipherId_toNat b n p hlegal
  exact ⟨rfl, rfl, rfl, rfl, rfl, hid, rfl, rfl, rfl, rfl, rfl, rfl, rfl, rfl, constructed_bufByte b n p⟩

/-- Settles O14: one lemma for each turn of the port. -/
theorem portTurnsOutsideAccesses : Obligations.PortTurnsOutsideAccesses := by
  intro s rest
  exact ⟨step_idle, fun i hp => ⟨step_construct_of_legal hp, step_construct_of_illegal hp⟩, step_release,
    fun a hp => step_accessDuringConstruction hp⟩

end Sys2Proof.Proofs
end
